-- ==== Sys2Proof/Word.lean ====
section
/-! DEFINITION. The data the machine moves: bytes of instruction texts and register indices. An integer value is
an `Int` that `Config.inValue` admits (spec R11): its width is a parameter and may be unbounded, so it is no bit vector
of fixed width (log entry 8). -/

namespace Sys2Proof

/-- One byte of an instruction text (spec R10, R30: a text is a finite sequence of bytes). -/
abbrev Byte := BitVec 8

/-- An instruction text: its bytes, `text[0]` first (R10, R36). -/
abbrev Text := List Byte

/-- A register index, 0 to 3: `NREGS` = 4 (R6, R16). -/
abbrev Reg := Fin 4

end Sys2Proof
end

