-- ==== Sys2Proof/Config.lean ====
section
/-! DEFINITION. The parameters of the machine (spec/00_scope.md section 4, R27): `CAP`, `XLEN`, `WS`, `ILEN_MAX`, `SNAP_HEAD`. -/

namespace Sys2Proof

/-- `XLEN` (R8): a number of bits, or `INF` for unbounded integers. -/
inductive Width where
  | bits (n : Nat)
  | inf
deriving DecidableEq, Repr

/-- The parameters a Core is created with (R27: parameters of the step, not state). They stand in `State.cfg`,
which no step and no load changes, so that every statement holds for every choice of them (log entry 1). -/
structure Config where
  /-- `CAP`: the number of memory cells (R7). -/
  cap : Nat
  /-- `XLEN`: the width of an integer value (R8). -/
  xlen : Width
  /-- `WS`: the bytes that separate tokens (R9, R48). -/
  ws : List Byte
  /-- `ILEN_MAX`: the greatest length of a text in a cell; `none` is unbounded (R9, R47). -/
  ilenMax : Option Nat
deriving DecidableEq, Repr

/-- `SNAP_HEAD`: how many leading cells a diagnostic snapshot shows; unspecified (R9), so a constant whose value
nothing in Lean can see. Safe (log entry 4). -/
opaque Config.snapHead : Nat

end Sys2Proof
end

