-- ==== Sys2Proof/Syntax.lean ====
section
/-! DEFINITION. The nine instructions, as `parse` yields them (spec R57). -/

namespace Sys2Proof

/-- A decoded instruction (R57), one constructor per row of the opcode table. Register indices are 0..3 by type;
that an immediate is a `Value` and an address a cell index is `Instr.wellFormed`. -/
inductive Instr where
  /-- `MOV R<d> <imm>` (R77). -/
  | mov (d : Reg) (imm : Int)
  /-- `ADD R<d> R<s>` (R79). -/
  | add (d s : Reg)
  /-- `SUB R<d> R<s>` (R80). -/
  | sub (d s : Reg)
  /-- `LOAD R<d> <addr>` (R84). -/
  | load (d : Reg) (addr : Nat)
  /-- `STORE R<s> <addr>` (R85). -/
  | store (s : Reg) (addr : Nat)
  /-- `JMP <addr>` (R88). -/
  | jmp (addr : Nat)
  /-- `JZ R<s> <addr>` (R89). -/
  | jz (s : Reg) (addr : Nat)
  /-- `JNZ R<s> <addr>` (R90). -/
  | jnz (s : Reg) (addr : Nat)
  /-- `HLT` (R94). -/
  | hlt
deriving DecidableEq, Repr

end Sys2Proof
end

