-- ==== Sys2Proof/Decode.lean ====
section
/-! DEFINITION. From instruction texts to instructions and back: the ranges the parameters give (spec R7 to R11),
tokens (R48), the token grammar (R50-R54), the formats and the opcode map (R55, R56), `parse` (R58), the canonical
spelling (R62) and the opcode table's words (R63). -/

namespace Sys2Proof

/-! ## What the parameters mean (R7 to R11) -/

/-- The defaults: `XLEN` = 32, `WS` = the six ASCII whitespace bytes, `ILEN_MAX` unbounded (R8, R9), and
`CAP` = 256 as in the spec's test vectors. DESIGN CHOICE, unsafe for claims that name no `CAP` (log entry 2). -/
def Config.default : Config where
  cap := 256
  xlen := .bits 32
  ws := [0x09#8, 0x0A#8, 0x0B#8, 0x0C#8, 0x0D#8, 0x20#8]
  ilenMax := none

/-- Membership in `Value` (R11): every integer when `XLEN = INF`, else `-2^(XLEN-1) .. 2^(XLEN-1)-1`. -/
def Config.inValue (cfg : Config) (v : Int) : Bool :=
  match cfg.xlen with
  | .inf => true
  | .bits n => decide (-((2 ^ (n - 1) : Nat) : Int) ≤ v ∧ v < ((2 ^ (n - 1) : Nat) : Int))

/-- `a` is the index of a cell: `0 <= a <= CAP-1` (R29, R32). -/
def Config.inMemory (cfg : Config) (a : Nat) : Bool :=
  decide (a < cfg.cap)

/-- A text of this length fits a cell (`ILEN_MAX`, R9). -/
def Config.fits (cfg : Config) (t : Text) : Bool :=
  match cfg.ilenMax with
  | none => true
  | some m => decide (t.length ≤ m)

/-- The spec's constraints on the parameters: `CAP >= 1` (R7) and `XLEN >= 2` or `INF` (R8). -/
def Config.wf (cfg : Config) : Bool :=
  decide (1 ≤ cfg.cap) &&
  match cfg.xlen with
  | .inf => true
  | .bits n => decide (2 ≤ n)

/-- The space separates tokens and no byte of the canonical spelling (a capital letter, a digit or `-`) does. The
spec gives `WS` no constraint; canonical spelling decodes the same under any `WS` of this kind (decision D7).
DEDUCED, safe: only a premise of the round-trip statement (log entry 15). -/
def Config.plainWs (cfg : Config) : Bool :=
  decide (0x20#8 ∈ cfg.ws) &&
  cfg.ws.all fun b =>
    !(decide (0x30 ≤ b.toNat ∧ b.toNat ≤ 0x39) || decide (0x41 ≤ b.toNat ∧ b.toNat ≤ 0x5A) || decide (b.toNat = 0x2D))

/-! ## Tokens (R48) -/

/-- The run of non-whitespace bytes a text begins with (perhaps empty), and the tokens after it. -/
def leadAndTokens (ws : List Byte) : Text → Text × List Text
  | [] => ([], [])
  | b :: t =>
    let r := leadAndTokens ws t
    if b ∈ ws then ([], if r.1 = [] then r.2 else r.1 :: r.2) else (b :: r.1, r.2)

/-- The tokens of a text: its maximal runs of bytes outside `WS`, in order (R48). -/
def tokens (ws : List Byte) (t : Text) : List Text :=
  let r := leadAndTokens ws t
  if r.1 = [] then r.2 else r.1 :: r.2

/-! ## The opcode map (R55, R56) -/

/-- The nine mnemonics (R56). -/
inductive Opcode where
  | mov | add | sub | load | store | jmp | jz | jnz | hlt
deriving DecidableEq, Repr

/-- The kinds of operand token (R51, R53, R54). -/
inductive OperandKind where
  | register | immediate | address
deriving DecidableEq, Repr

/-- The five formats (R55). -/
inductive Format where
  | z | a | ri | rr | ra
deriving DecidableEq, Repr

/-- The nine mnemonics in the order of the opcode map (R56). -/
def Opcode.all : List Opcode := [.mov, .add, .sub, .load, .store, .jmp, .jz, .jnz, .hlt]

/-- The bytes of `t0` (R56). The codes are ASCII, which the spec takes from general knowledge (its G1). -/
def Opcode.bytes : Opcode → Text
  | .mov => [0x4D#8, 0x4F#8, 0x56#8]
  | .add => [0x41#8, 0x44#8, 0x44#8]
  | .sub => [0x53#8, 0x55#8, 0x42#8]
  | .load => [0x4C#8, 0x4F#8, 0x41#8, 0x44#8]
  | .store => [0x53#8, 0x54#8, 0x4F#8, 0x52#8, 0x45#8]
  | .jmp => [0x4A#8, 0x4D#8, 0x50#8]
  | .jz => [0x4A#8, 0x5A#8]
  | .jnz => [0x4A#8, 0x4E#8, 0x5A#8]
  | .hlt => [0x48#8, 0x4C#8, 0x54#8]

/-- The format of a mnemonic (R56). -/
def Opcode.format : Opcode → Format
  | .mov => .ri
  | .add => .rr
  | .sub => .rr
  | .load => .ra
  | .store => .ra
  | .jmp => .a
  | .jz => .ra
  | .jnz => .ra
  | .hlt => .z

/-- The operand tokens of a format, `t1` then `t2` (R55). -/
def Format.operands : Format → List OperandKind
  | .z => []
  | .a => [.address]
  | .ri => [.register, .immediate]
  | .rr => [.register, .register]
  | .ra => [.register, .address]

/-- `k`, the number of tokens a text of the format must have (R55). -/
def Format.tokenCount (f : Format) : Nat := 1 + f.operands.length

/-- The mnemonic a token is, byte for byte (R50). -/
def opcodeOf (t0 : Text) : Option Opcode :=
  Opcode.all.find? fun o => decide (o.bytes = t0)

/-! ## Why a text is no instruction -/

/-- What makes a text illegal, named more finely than the two faults of R58 (log entry 16: safe). -/
inductive DecodeError where
  /-- No token (R58 step 2). -/
  | noToken
  /-- `t0` is not one of the nine mnemonics (R58 step 3). -/
  | unknownMnemonic
  /-- The number of tokens is not the format's (R58 step 4). -/
  | wrongTokenCount
  /-- A register was expected and the token is not `R` and one digit (R51). -/
  | malformedRegister
  /-- A register token with index 4 to 9 (R51). -/
  | registerOutOfRange
  /-- A literal was expected and the token is not `-?[0-9]+` (R52). -/
  | malformedLiteral
  /-- An immediate outside `Value` (R53). -/
  | immediateOutOfRange
  /-- An address that is negative or not below `CAP` (R54). -/
  | addressOutOfRange
deriving DecidableEq, Repr

/-! ## Operand tokens (R51 to R54) -/

/-- The value of a decimal digit `'0'`=0x30 .. `'9'`=0x39. -/
def digitOf (b : Byte) : Option Nat :=
  if 0x30 ≤ b.toNat ∧ b.toNat ≤ 0x39 then some (b.toNat - 0x30) else none

/-- The number that digits denote in base 10 when they follow digits denoting `acc`. -/
def digitsFrom (acc : Nat) : Text → Option Nat
  | [] => some acc
  | b :: t =>
    match digitOf b with
    | some d => digitsFrom (10 * acc + d) t
    | none => none

/-- One or more decimal digits (R52); leading zeros count for nothing. -/
def digits (t : Text) : Option Nat :=
  if t = [] then none else digitsFrom 0 t

/-- An integer literal `-?[0-9]+` and its value (R52). -/
def literal (t : Text) : Option Int :=
  match t with
  | [] => none
  | b :: ds =>
    if b = 0x2D#8 then (digits ds).map fun n : Nat => -(n : Int) else (digits (b :: ds)).map fun n : Nat => (n : Int)

/-- A register operand: `'R'` (0x52) and one digit, of value 0 to 3 (R51). -/
def regOperand (t : Text) : Except DecodeError Reg :=
  match t with
  | [r, b] =>
    if r = 0x52#8 then
      match digitOf b with
      | some i => if h : i < 4 then .ok ⟨i, h⟩ else .error .registerOutOfRange
      | none => .error .malformedRegister
    else .error .malformedRegister
  | _ => .error .malformedRegister

/-- An immediate operand: a literal whose value is a `Value`, never truncated (R53). -/
def immOperand (cfg : Config) (t : Text) : Except DecodeError Int :=
  match literal t with
  | none => .error .malformedLiteral
  | some v => if cfg.inValue v then .ok v else .error .immediateOutOfRange

/-- An address operand: a literal `v` with `0 <= v <= CAP-1`, never clamped (R54, R32). -/
def addrOperand (cfg : Config) (t : Text) : Except DecodeError Nat :=
  match literal t with
  | none => .error .malformedLiteral
  | some v => if 0 ≤ v ∧ cfg.inMemory v.toNat then .ok v.toNat else .error .addressOutOfRange

/-- A token is a valid operand of a kind (R58 step 5). -/
def validOperand (cfg : Config) : OperandKind → Text → Bool
  | .register, t => (regOperand t).isOk
  | .immediate, t => (immOperand cfg t).isOk
  | .address, t => (addrOperand cfg t).isOk

/-! ## The decode algorithm (R58) -/

/-- Operands of format Z: none. -/
def operandsZ (i : Instr) : List Text → Except DecodeError Instr
  | [] => .ok i
  | _ => .error .wrongTokenCount

/-- Operands of format A: an address. -/
def operandsA (cfg : Config) (mk : Nat → Instr) : List Text → Except DecodeError Instr
  | [t1] => (addrOperand cfg t1).map mk
  | _ => .error .wrongTokenCount

/-- Operands of format RI: a register, then an immediate. -/
def operandsRI (cfg : Config) (mk : Reg → Int → Instr) : List Text → Except DecodeError Instr
  | [t1, t2] => (regOperand t1).bind fun r => (immOperand cfg t2).map (mk r)
  | _ => .error .wrongTokenCount

/-- Operands of format RR: two registers. -/
def operandsRR (mk : Reg → Reg → Instr) : List Text → Except DecodeError Instr
  | [t1, t2] => (regOperand t1).bind fun r => (regOperand t2).map (mk r)
  | _ => .error .wrongTokenCount

/-- Operands of format RA: a register, then an address. -/
def operandsRA (cfg : Config) (mk : Reg → Nat → Instr) : List Text → Except DecodeError Instr
  | [t1, t2] => (regOperand t1).bind fun r => (addrOperand cfg t2).map (mk r)
  | _ => .error .wrongTokenCount

/-- R58 steps 4 to 6 for a recognised mnemonic and the tokens after it. -/
def parseOperands (cfg : Config) : Opcode → List Text → Except DecodeError Instr
  | .mov => operandsRI cfg .mov
  | .add => operandsRR .add
  | .sub => operandsRR .sub
  | .load => operandsRA cfg .load
  | .store => operandsRA cfg .store
  | .jmp => operandsA cfg .jmp
  | .jz => operandsRA cfg .jz
  | .jnz => operandsRA cfg .jnz
  | .hlt => operandsZ .hlt

/-- `parse` (R58): the instruction a text is, or why it is none. Total on every sequence of bytes. -/
def parse (cfg : Config) (t : Text) : Except DecodeError Instr :=
  match tokens cfg.ws t with
  | [] => .error .noToken
  | t0 :: ops =>
    match opcodeOf t0 with
    | none => .error .unknownMnemonic
    | some o => parseOperands cfg o ops

/-! ## The canonical spelling (R62) -/

/-- The digit of a number below 10. -/
def digitByte (n : Nat) : Byte := BitVec.ofNat 8 (0x30 + n)

/-- The decimal digits of `n` before the digits `acc`; `fuel` bounds their number. -/
def decimalOnto : Nat → Nat → Text → Text
  | 0, _, acc => acc
  | fuel + 1, n, acc =>
    if n < 10 then digitByte n :: acc else decimalOnto fuel (n / 10) (digitByte (n % 10) :: acc)

/-- `n` in decimal, without leading zeros. -/
def decimal (n : Nat) : Text := decimalOnto (n.log2 + 1) n []

/-- An integer as a literal token. -/
def literalToken : Int → Text
  | .ofNat n => decimal n
  | .negSucc n => 0x2D#8 :: decimal (n + 1)

/-- A register as a token. -/
def regToken (r : Reg) : Text := [0x52#8, digitByte r.val]

/-- The mnemonic of an instruction. -/
def Instr.opcode : Instr → Opcode
  | .mov _ _ => .mov
  | .add _ _ => .add
  | .sub _ _ => .sub
  | .load _ _ => .load
  | .store _ _ => .store
  | .jmp _ => .jmp
  | .jz _ _ => .jz
  | .jnz _ _ => .jnz
  | .hlt => .hlt

/-- The operand tokens of an instruction, `t1` then `t2` (R49). -/
def Instr.operandTokens : Instr → List Text
  | .mov d imm => [regToken d, literalToken imm]
  | .add d s => [regToken d, regToken s]
  | .sub d s => [regToken d, regToken s]
  | .load d addr => [regToken d, decimal addr]
  | .store s addr => [regToken s, decimal addr]
  | .jmp addr => [decimal addr]
  | .jz s addr => [regToken s, decimal addr]
  | .jnz s addr => [regToken s, decimal addr]
  | .hlt => []

/-- Tokens after the first, each behind one space. -/
def spaced : List Text → Text
  | [] => []
  | t :: ts => 0x20#8 :: t ++ spaced ts

/-- The text of an instruction in canonical spelling: one space between tokens, none at the ends (R62). -/
def encode (i : Instr) : Text := i.opcode.bytes ++ spaced i.operandTokens

/-! ## The opcode table's words (R63) -/

/-- The `n` low bytes of `w`, the most significant first (R63: `t0` is read as a big-endian number). -/
def bigEndianBytes : Nat → Nat → Text
  | 0, _ => []
  | n + 1, w => bigEndianBytes n (w / 256) ++ [BitVec.ofNat 8 w]

/-- The number a token is when read big-endian (R63). -/
def bigEndianValue (t : Text) : Nat := t.foldl (fun acc b => 256 * acc + b.toNat) 0

/-- The canonical operand token that denotes zero. -/
def zeroOperand : OperandKind → Text
  | .register => regToken 0
  | .immediate => decimal 0
  | .address => decimal 0

/-- The text a word of the opcode table stands for. The table gives bits to token `t0` only (R63); its operand
tokens are given no bits and are spelled here as zero, behind one space each. DESIGN CHOICE, safe (log entry 6). -/
def tableText (nbits w : Nat) : Text :=
  let t0 := (bigEndianBytes ((nbits + 7) / 8) w).dropWhile (fun b => decide (b = 0#8))
  match opcodeOf t0 with
  | none => t0
  | some o => t0 ++ spaced (o.format.operands.map zeroOperand)

/-- The instruction `parse` reads, under the default parameters, from a word of the opcode table. -/
def decodeTableWord (nbits w : Nat) : Option Instr :=
  match parse Config.default (tableText nbits w) with
  | .ok i => some i
  | .error _ => none

end Sys2Proof
end

