-- ==== Sys2Proof/Machine/State.lean ====
section
/-! DEFINITION. The state of a Core (spec/10_state.md), the fault causes, the decoder's mutations, and the state at creation. -/

namespace Sys2Proof.Machine

/-- The three faults of a Core (R97). Taking one is a NEXT state (`State.enterFault`, R104), not a stop of the model. -/
inductive Cause where
  /-- The fetched cell is no text with a valid mnemonic (R98). -/
  | invalidOpcode
  /-- A bad operand, a bad token count, or LOAD of an instruction cell (R99). -/
  | invalidOperand
  /-- `fetch` found `pc >= CAP` (R100). -/
  | endOfMemory
deriving DecidableEq, Repr

/-- A memory cell (R30): one instruction text or one integer, tagged, never converted into each other. -/
inductive Cell where
  | instr (t : Text)
  | int (v : Int)
deriving DecidableEq, Repr

/-- The memory array (R25) as the cells that differ from `Memory.unlisted`, by rising address (log entry 7). -/
abbrev Memory := List (Nat × Cell)

/-- The register file `R0` to `R3` (R16): four ordinary registers, none hard-wired, each holding a `Value` (R11). -/
structure Regs where
  r0 : Int
  r1 : Int
  r2 : Int
  r3 : Int
deriving DecidableEq, Repr

/-- The state of a Core: exactly the five items of R15, beside the parameters it was created with (R27). -/
structure State where
  /-- The parameters; no step and no load changes them. The model's own field (log entry 1). -/
  cfg : Config
  /-- The register file `x[0..3]` (R16). -/
  x : Regs
  /-- The program counter, 0 to `CAP` (R18). -/
  pc : Nat
  /-- The running flag (R20). -/
  running : Bool
  /-- The cause of the last halt (R21); `none` is the spec's `None`. -/
  fault : Option Cause
  /-- The memory `mem[0..CAP-1]` (R25). -/
  mem : Memory
deriving DecidableEq, Repr

/-- What an instruction changes: the output of the decoder (R57). -/
inductive Mutation where
  | setReg (i : Reg) (v : Int)
  | setMem (a : Nat) (v : Int)
  | setPC (a : Nat)
  | halt
  | noChange
deriving DecidableEq, Repr

/-- Why a step stops without a next state. The spec's own faults are next states and are not here. -/
inductive Fault where
  /-- Raised by `step` when `running = false`: an idle Core has no step (R70). Safe: a stuck state (log entry 9). -/
  | idle
deriving DecidableEq, Repr

/-- What the model gives no meaning. -/
inductive Refusal where
  /-- An instruction without a meaning yet; no arm of `exec` answers it. Safe. -/
  | notModelled (mnemonic : String)
  /-- Raised by `load` on a running Core: the host's duty is broken and there is no such transition (R113,
  decision D20). Safe. -/
  | loadWhileRunning
  /-- Raised by `load` of a text longer than `ILEN_MAX`, which no cell can hold (R9); no rule says what happens
  (log entry 11). Safe. -/
  | textTooLong
  /-- Raised by `Pool.stepAt` and `Pool.loadAt` of an index at which the pool has no Core; a pool holds a fixed number of
  Cores (R116; log entry 13). Safe. -/
  | noSuchCore
deriving DecidableEq, Repr

/-- A newly created Core (R28, R121): idle, everything zero. Memory lists nothing, so every cell is `Int(0)`. -/
def State.reset : State where
  cfg := Config.default
  x := { r0 := 0, r1 := 0, r2 := 0, r3 := 0 }
  pc := 0
  running := false
  fault := none
  mem := []

end Sys2Proof.Machine
end

