-- ==== Sys2Proof/Machine/Ops.lean ====
section
/-! DEFINITION. The named operations over registers, memory and status: `wrap` (spec R11), `x[i]` (R12), `MemRead` and
`MemWrite` (R33, R34), `fetch` (R66), fault entry (R104), `apply` (R68). -/

namespace Sys2Proof.Machine

/-! ## Integers (R11) -/

/-- `sext_N(v)`: the integer in `-2^(N-1) .. 2^(N-1)-1` congruent to `v` modulo `2^N` (R11). -/
def sext (n : Nat) (v : Int) : Int :=
  let r := v % ((2 ^ n : Nat) : Int)
  if r < ((2 ^ (n - 1) : Nat) : Int) then r else r - ((2 ^ n : Nat) : Int)

/-- `zext_N(v)`: `v mod 2^N` (R11). -/
def zext (n : Nat) (v : Int) : Int := v % ((2 ^ n : Nat) : Int)

/-- `wrap(v)`: `v` itself when `XLEN = INF`, else `sext_XLEN(v)` (R11). -/
def wrap (cfg : Config) (v : Int) : Int :=
  match cfg.xlen with
  | .inf => v
  | .bits n => sext n v

/-! ## Registers (R12, R16) -/

/-- `x[i]`. -/
def Regs.get (x : Regs) (i : Reg) : Int :=
  match i with
  | 0 => x.r0
  | 1 => x.r1
  | 2 => x.r2
  | 3 => x.r3

/-- `x` after `x[i] <- v`. -/
def Regs.set (x : Regs) (i : Reg) (v : Int) : Regs :=
  match i with
  | 0 => { x with r0 := v }
  | 1 => { x with r1 := v }
  | 2 => { x with r2 := v }
  | 3 => { x with r3 := v }

/-- `x[i] <- v` on the state. -/
def State.setReg (s : State) (i : Reg) (v : Int) : State := { s with x := s.x.set i v }

/-! ## Memory (R13, R30) -/

/-- What an address that is not listed reads as: the zeroed cell `Int(0)` (R28, R30). -/
def Memory.unlisted : Cell := .int 0

/-- `mem[a]`. -/
def Memory.read : Memory → Nat → Cell
  | [], _ => Memory.unlisted
  | (k, c) :: m, a => if k = a then c else Memory.read m a

/-- The entry `(a, c)` put before the first greater address. -/
def Memory.insert (a : Nat) (c : Cell) : Memory → Memory
  | [] => [(a, c)]
  | (k, d) :: m => if a < k then (a, c) :: (k, d) :: m else (k, d) :: Memory.insert a c m

/-- `mem` after `mem[a] <- c`; writing what an unlisted address reads as removes the entry. -/
def Memory.write (m : Memory) (a : Nat) (c : Cell) : Memory :=
  let rest := m.filter fun p => decide (p.1 ≠ a)
  if c = Memory.unlisted then rest else Memory.insert a c rest

/-- The canonical form: addresses strictly rise and no entry equals what an unlisted address reads as. -/
abbrev Memory.wf (m : Memory) : Prop :=
  m.Pairwise (fun p q => p.1 < q.1) ∧ ∀ p ∈ m, p.2 ≠ Memory.unlisted

/-- `mem[a]` of a state. -/
def State.cell (s : State) (a : Nat) : Cell := Memory.read s.mem a

/-- `mem[a] <- c` on the state. -/
def State.setCell (s : State) (a : Nat) (c : Cell) : State := { s with mem := Memory.write s.mem a c }

/-- `MemRead(a, 1)`: the integer of an integer cell; an instruction text raises `InvalidOperand` (R33, decision D5). -/
def memRead (m : Memory) (a : Nat) : Except Cause Int :=
  match Memory.read m a with
  | .int v => .ok v
  | .instr _ => .error .invalidOperand

/-- `MemWrite(a, 1, v)`: `mem[a] <- Int(v)`, whatever the cell held (R34). -/
def memWrite (s : State) (a : Nat) (v : Int) : State := s.setCell a (.int v)

/-! ## Program counter and status (R18, R20, R21) -/

/-- `pc <- a`. -/
def State.setPc (s : State) (a : Nat) : State := { s with pc := a }

/-- `pc <- pc + 1`, the advance of `fetch` (R66). -/
def State.advance (s : State) : State := { s with pc := s.pc + 1 }

/-- `running <- false`. -/
def State.halt (s : State) : State := { s with running := false }

/-- Fault entry with cause `c` (R104): `running <- false`, `fault <- c`, and nothing else. There is no return from a
fault; only a new `load` lets the Core run again (R106). -/
def State.enterFault (s : State) (c : Cause) : State := { s with running := false, fault := some c }

/-- The fault a decoding error raises (R58): `InvalidOpcode` for steps 2 and 3, `InvalidOperand` for steps 4 and 5. -/
def causeOf : DecodeError → Cause
  | .noToken => .invalidOpcode
  | .unknownMnemonic => .invalidOpcode
  | .wrongTokenCount => .invalidOperand
  | .malformedRegister => .invalidOperand
  | .registerOutOfRange => .invalidOperand
  | .malformedLiteral => .invalidOperand
  | .immediateOutOfRange => .invalidOperand
  | .addressOutOfRange => .invalidOperand

/-- The number of a fault status, for an implementation that keeps it in a register (R102, decision D18). -/
def faultCode : Option Cause → Nat
  | none => 0
  | some .invalidOpcode => 1
  | some .invalidOperand => 2
  | some .endOfMemory => 3

/-! ## Fetch and apply -/

/-- `fetch()` (R66): the cell at `pc` and the state with `pc` advanced, or `EndOfMemory` when `pc >= CAP`. -/
def fetch (s : State) : Except Cause (Cell × State) :=
  if s.cfg.cap ≤ s.pc then .error .endOfMemory else .ok (s.cell s.pc, s.advance)

/-- `apply(m)` (R68): the one change the mutation names. -/
def applyMutation (s : State) : Mutation → State
  | .setReg i v => s.setReg i v
  | .setMem a v => memWrite s a v
  | .setPC a => s.setPc a
  | .halt => s.halt
  | .noChange => s

/-- The end of an instruction: its mutation applied, or, when `resolve` raised, fault entry and no mutation (R69). -/
def finish (r : Except Cause Mutation) (s : State) : Host.Outcome State Fault Refusal :=
  match r with
  | .ok m => .next (applyMutation s m)
  | .error c => .next (s.enterFault c)

end Sys2Proof.Machine
end

