-- ==== Sys2Proof/Machine/Operands.lean ====
section
/-! DEFINITION. The operand forms of the meanings: an immediate and an address. `parse` has checked both (spec R53, R54);
the checks stand here again so that a term `parse` never yields raises what R32 says an out-of-range reference
raises (DEDUCED, safe: log entry 10). -/

namespace Sys2Proof.Machine

/-- An immediate operand: a `Value`, never truncated (R53). -/
def immValue (cfg : Config) (v : Int) : Except Cause Int :=
  if cfg.inValue v then .ok v else .error .invalidOperand

/-- An address operand: the absolute index of a cell (R32, R54, R86). -/
def cellIndex (cfg : Config) (a : Nat) : Except Cause Nat :=
  if cfg.inMemory a then .ok a else .error .invalidOperand

end Sys2Proof.Machine
end

