-- ==== Sys2Proof/Machine/Flags.lean ====
section
/-! DEFINITION. There are no flags (spec R22). What takes their place: the zero test of a register's whole value, the only
comparison in the machine (R83), and the two conditions of the jumps (R92). -/

namespace Sys2Proof.Machine

/-- The condition of JZ: the value is zero (R89). -/
def isZero (v : Int) : Bool := decide (v = 0)

/-- The condition of JNZ: the value is not zero, positive or negative (R90). -/
def isNonzero (v : Int) : Bool := decide (v ≠ 0)

/-- A jump to cell `a` on a condition, its address checked whether or not it is taken (R58, decision D14). -/
def jumpWhen (cfg : Config) (cond : Bool) (a : Nat) : Except Cause Mutation :=
  (cellIndex cfg a).map fun t => if cond then .setPC t else .noChange

end Sys2Proof.Machine
end

