-- ==== Sys2Proof/Machine/Arithmetic.lean ====
section
/-! DEFINITION. ADD and SUB (spec/42_arithmetic.md): exact, then reduced by `wrap`; no flag, no fault on values (R81). -/

namespace Sys2Proof.Machine

/-- ADD's mutation: `SetReg(d, wrap(x[d] + x[s]))` (R79). -/
def resolveAdd (cfg : Config) (x : Regs) (d s : Reg) : Except Cause Mutation :=
  .ok (.setReg d (wrap cfg (x.get d + x.get s)))

/-- ADD: add a register to a register (R79). -/
def execAdd (d r : Reg) (s : State) : Host.Outcome State Fault Refusal :=
  finish (resolveAdd s.cfg s.x d r) s

/-- SUB's mutation: `SetReg(d, wrap(x[d] - x[s]))` (R80). -/
def resolveSub (cfg : Config) (x : Regs) (d s : Reg) : Except Cause Mutation :=
  .ok (.setReg d (wrap cfg (x.get d - x.get s)))

/-- SUB: subtract a register from a register (R80). -/
def execSub (d r : Reg) (s : State) : Host.Outcome State Fault Refusal :=
  finish (resolveSub s.cfg s.x d r) s

end Sys2Proof.Machine
end

