-- ==== Sys2Proof/Machine/ControlTransfer.lean ====
section
/-! DEFINITION. JMP, JZ and JNZ (spec/44_control_transfer.md): `pc` already holds the next address (R66). -/

namespace Sys2Proof.Machine

/-- JMP's mutation: `SetPC(addr)` (R88). -/
def resolveJmp (cfg : Config) (addr : Nat) : Except Cause Mutation :=
  jumpWhen cfg true addr

/-- JMP: unconditional jump (R88). -/
def execJmp (addr : Nat) (s : State) : Host.Outcome State Fault Refusal :=
  finish (resolveJmp s.cfg addr) s

/-- JZ's mutation: `SetPC(addr)` when `x[s] = 0`, else `NoChange` (R89). -/
def resolveJz (cfg : Config) (x : Regs) (r : Reg) (addr : Nat) : Except Cause Mutation :=
  jumpWhen cfg (isZero (x.get r)) addr

/-- JZ: jump if a register is zero (R89). -/
def execJz (r : Reg) (addr : Nat) (s : State) : Host.Outcome State Fault Refusal :=
  finish (resolveJz s.cfg s.x r addr) s

/-- JNZ's mutation: `SetPC(addr)` when `x[s] != 0`, else `NoChange` (R90). -/
def resolveJnz (cfg : Config) (x : Regs) (r : Reg) (addr : Nat) : Except Cause Mutation :=
  jumpWhen cfg (isNonzero (x.get r)) addr

/-- JNZ: jump if a register is not zero (R90). -/
def execJnz (r : Reg) (addr : Nat) (s : State) : Host.Outcome State Fault Refusal :=
  finish (resolveJnz s.cfg s.x r addr) s

end Sys2Proof.Machine
end

