-- ==== Sys2Proof/Machine/Halt.lean ====
section
/-! DEFINITION. HLT (spec/45_halt.md), the only system instruction (R95). -/

namespace Sys2Proof.Machine

/-- HLT's mutation: `Halt` (R94). -/
def resolveHlt : Except Cause Mutation := .ok .halt

/-- HLT: stop the Core normally; `fault` is not touched (R94, R96). -/
def execHlt (s : State) : Host.Outcome State Fault Refusal :=
  finish resolveHlt s

end Sys2Proof.Machine
end

