-- ==== Sys2Proof/Machine/LoadStore.lean ====
section
/-! DEFINITION. LOAD and STORE (spec/43_load_store.md): one whole cell at an absolute address (R86, R87). -/

namespace Sys2Proof.Machine

/-- LOAD's mutation: `SetReg(d, v)` where `mem[addr] = Int(v)`; an instruction cell raises (R84, R33). -/
def resolveLoad (cfg : Config) (m : Memory) (d : Reg) (addr : Nat) : Except Cause Mutation :=
  (cellIndex cfg addr).bind fun a => (memRead m a).map (.setReg d)

/-- LOAD: read one memory cell into a register (R84). -/
def execLoad (d : Reg) (addr : Nat) (s : State) : Host.Outcome State Fault Refusal :=
  finish (resolveLoad s.cfg s.mem d addr) s

/-- STORE's mutation: `SetMem(addr, x[s])` (R85). -/
def resolveStore (cfg : Config) (x : Regs) (r : Reg) (addr : Nat) : Except Cause Mutation :=
  (cellIndex cfg addr).map fun a => .setMem a (x.get r)

/-- STORE: write a register into one memory cell (R85). -/
def execStore (r : Reg) (addr : Nat) (s : State) : Host.Outcome State Fault Refusal :=
  finish (resolveStore s.cfg s.x r addr) s

end Sys2Proof.Machine
end

