-- ==== Sys2Proof/Machine/Move.lean ====
section
/-! DEFINITION. MOV (spec/41_move.md). -/

namespace Sys2Proof.Machine

/-- MOV's mutation: `SetReg(d, imm)` (R77). -/
def resolveMov (cfg : Config) (d : Reg) (imm : Int) : Except Cause Mutation :=
  (immValue cfg imm).map (.setReg d)

/-- MOV: load an immediate into a register (R77). -/
def execMov (d : Reg) (imm : Int) (s : State) : Host.Outcome State Fault Refusal :=
  finish (resolveMov s.cfg d imm) s

end Sys2Proof.Machine
end

