-- ==== Sys2Proof/Machine/Dispatch.lean ====
section
/-! DEFINITION. The meaning of each instruction (spec R67: `resolve` and `apply`), at a state whose pc `fetch` has advanced. -/

namespace Sys2Proof.Machine

def exec (i : Instr) (s : State) : Host.Outcome State Fault Refusal :=
  match i with
  | .mov d imm => Sys2Proof.Machine.execMov d imm s
  | .add d r => Sys2Proof.Machine.execAdd d r s
  | .sub d r => Sys2Proof.Machine.execSub d r s
  | .load d addr => Sys2Proof.Machine.execLoad d addr s
  | .store r addr => Sys2Proof.Machine.execStore r addr s
  | .jmp addr => Sys2Proof.Machine.execJmp addr s
  | .jz r addr => Sys2Proof.Machine.execJz r addr s
  | .jnz r addr => Sys2Proof.Machine.execJnz r addr s
  | .hlt => Sys2Proof.Machine.execHlt s

end Sys2Proof.Machine
end

