-- ==== Sys2Proof/Machine/Cycle.lean ====
section
/-! DEFINITION. The fetch-decode-execute cycle (spec/40_core_operations.md R66 to R70). -/

namespace Sys2Proof.Machine

/-- `decodeExecute(c)` (R67) at a state whose `pc` is already advanced: an integer is no instruction; a text is parsed
and its instruction executed; what raises enters the fault (R69). Its answer, "the Core's running state", is the
next state's `running`. -/
def decodeExecute (c : Cell) (s : State) : Host.Outcome State Fault Refusal :=
  match c with
  | .int _ => .next (s.enterFault .invalidOpcode)
  | .instr t =>
    match parse s.cfg t with
    | .error e => .next (s.enterFault (causeOf e))
    | .ok i => exec i s

/-- One step (R70): enabled exactly when `running = true`; `fetch`, then `decodeExecute`. An idle Core has no step:
the stuck state `Fault.idle` (log entry 9). -/
def cycle (s : State) : Host.Outcome State Fault Refusal :=
  if s.running then
    match fetch s with
    | .error c => .next (s.enterFault c)
    | .ok r => decodeExecute r.1 r.2
  else .fault .idle

end Sys2Proof.Machine
end

