-- ==== Sys2Proof/Machine/Step.lean ====
section
/-! DEFINITION. The step of the Core (spec R70), and how a word of the opcode table is placed for it. -/

namespace Sys2Proof.Machine

/-- One indivisible step (R70). -/
def step (s : State) : Host.Outcome State Fault Refusal :=
  Sys2Proof.Machine.cycle s

/-- `s` with the text of an opcode-table word in the cell `fetch` reads next, and running. It stands for the host's
`load`, the only way a text enters memory (R65): the cell is written and `running` is set, and the rest of the state
is left as it is (log entry 6). -/
def State.withFetchWord (s : State) (nbits w : Nat) : State :=
  { s.setCell s.pc (.instr (Sys2Proof.tableText nbits w)) with running := true }

end Sys2Proof.Machine
end

