-- ==== Sys2Proof/Machine/Decoder.lean ====
section
/-! DEFINITION. The Instruction Decoder as the pure function the spec describes (R1, R57): from one text, the registers and
the memory to a mutation. It takes no `pc`, no `running` and no `fault`, so it reads none of them. -/

namespace Sys2Proof.Machine

/-- `resolve(i, x, mem)` (R57, R67): the one mutation each instruction yields, or the fault it raises. -/
def resolve (cfg : Config) (x : Regs) (m : Memory) (i : Instr) : Except Cause Mutation :=
  match i with
  | .mov d imm => resolveMov cfg d imm
  | .add d r => resolveAdd cfg x d r
  | .sub d r => resolveSub cfg x d r
  | .load d addr => resolveLoad cfg m d addr
  | .store r addr => resolveStore cfg x r addr
  | .jmp addr => resolveJmp cfg addr
  | .jz r addr => resolveJz cfg x r addr
  | .jnz r addr => resolveJnz cfg x r addr
  | .hlt => resolveHlt

/-- The decoder: `parse`, then `resolve` (R57). -/
def decoder (cfg : Config) (x : Regs) (m : Memory) (t : Text) : Except Cause Mutation :=
  match parse cfg t with
  | .error e => .error (causeOf e)
  | .ok i => resolve cfg x m i

end Sys2Proof.Machine
end

