-- ==== Sys2Proof/Machine/HostOps.lean ====
section
/-! DEFINITION. What the host does to a Core (spec/40_core_operations.md, spec/60_exceptions.md section 4): `load`, `run`
under fuel, reading the end of a run, and the diagnostic snapshot. -/

namespace Sys2Proof.Machine

/-- The answer of `load` on a Core (`σ` is `State`) or on a Core of a pool (`σ` is `Pool`). -/
inductive LoadResult (σ : Type) where
  /-- The program is loaded; the Core runs from here. -/
  | loaded (s : σ)
  /-- The error `ProgramTooLarge` to the caller, and the state, which did not change (R65, R101). -/
  | programTooLarge (s : σ)
  /-- No such transition (R113), or no rule (`textTooLong`). -/
  | refused (r : Refusal)
deriving DecidableEq, Repr

/-- The cells of a program from address `a` on. -/
def Memory.ofProgram (a : Nat) : List Text → Memory
  | [] => []
  | t :: ts => (a, .instr t) :: Memory.ofProgram (a + 1) ts

/-- `load(P)` (R65, R122): a full reset, the texts in cells `0 .. n-1`, `pc = 0`, running. Texts are not parsed. -/
def load (P : List Text) (s : State) : LoadResult State :=
  if s.running then .refused .loadWhileRunning
  else if s.cfg.cap < P.length then .programTooLarge s
  else if P.all s.cfg.fits then
    .loaded
      { cfg := s.cfg
        x := { r0 := 0, r1 := 0, r2 := 0, r3 := 0 }
        pc := 0
        running := true
        fault := none
        mem := Memory.ofProgram 0 P }
  else .refused .textTooLong

/-- `run()` (R71) for at most `fuel` steps: the final state when the run ends within them, `none` when the Core is
still running. A run need not end (R73). -/
def run : Nat → State → Option State
  | 0, s => if s.running then none else some s
  | fuel + 1, s =>
    if s.running then
      match step s with
      | .next t => run fuel t
      | .fault _ => none
      | .refused _ => none
    else some s

/-- The state after exactly `n` whole steps; `none` when the Core stopped before. -/
def steps : Nat → State → Option State
  | 0, s => some s
  | n + 1, s =>
    match step s with
    | .next t => steps n t
    | .fault _ => none
    | .refused _ => none

/-- How a run ended, as the host reads it (R72, R115). -/
inductive RunEnd where
  /-- Finished normally, by HLT. -/
  | normal
  /-- Finished with error, by a fault. -/
  | faulted (c : Cause)
deriving DecidableEq, Repr

/-- The end of the run of an idle Core that was loaded (R72); `none` while it runs. -/
def runEnd (s : State) : Option RunEnd :=
  if s.running then none
  else
    match s.fault with
    | none => some .normal
    | some c => some (.faulted c)

/-- The diagnostic snapshot (R74): `pc`, the registers and the head of memory. An output that nothing reads back. -/
structure Snapshot where
  pc : Nat
  x : Regs
  head : List Cell
deriving DecidableEq, Repr

/-- The snapshot of a state that shows its first `head` cells. -/
def snapshotOf (head : Nat) (s : State) : Snapshot where
  pc := s.pc
  x := s.x
  head := (List.range (min head s.cfg.cap)).map s.cell

/-- The snapshot a Core may emit after a step, showing `SNAP_HEAD` cells (R74). -/
def snapshot (s : State) : Snapshot := snapshotOf Config.snapHead s

end Sys2Proof.Machine
end

