-- ==== Sys2Proof/Machine/Pool.lean ====
section
/-! DEFINITION. A pool of Cores (spec R46, R116): each has its own state and they share nothing. Which Core steps next is the
reader's choice, so that every interleaving of whole steps is covered (log entry 13). What a Core has no transition for, the
pool has none for: it answers the Core's own stop and no pool. -/

namespace Sys2Proof.Machine

/-- The Cores of a pool, in pool order. -/
abbrev Pool := List State

/-- Core `k` takes its next step (R116); an idle Core has none (R70). -/
def Pool.stepAt (p : Pool) (k : Nat) : Host.Outcome Pool Fault Refusal :=
  match p[k]? with
  | none => .refused .noSuchCore
  | some s =>
    match step s with
    | .next t => .next (p.set k t)
    | .fault f => .fault f
    | .refused r => .refused r

/-- The host calls `load(P)` on Core `k` (R46, R65); on a running Core there is no such transition (R113, decision D20). -/
def Pool.loadAt (p : Pool) (k : Nat) (P : List Text) : LoadResult Pool :=
  match p[k]? with
  | none => .refused .noSuchCore
  | some s =>
    match load P s with
    | .loaded t => .loaded (p.set k t)
    | .programTooLarge t => .programTooLarge (p.set k t)
    | .refused r => .refused r

end Sys2Proof.Machine
end

