-- ==== Sys2Proof/WellFormed.lean ====
section
/-! DEFINITION. Which instruction terms `parse` can yield (spec R57: every field is already in range). -/

namespace Sys2Proof

/-- Every field is in range: an immediate is a `Value` (R53), an address a cell index (R54). -/
def Instr.wellFormed (cfg : Config) : Instr → Bool
  | .mov _ imm => cfg.inValue imm
  | .add _ _ => true
  | .sub _ _ => true
  | .load _ addr => cfg.inMemory addr
  | .store _ addr => cfg.inMemory addr
  | .jmp addr => cfg.inMemory addr
  | .jz _ addr => cfg.inMemory addr
  | .jnz _ addr => cfg.inMemory addr
  | .hlt => true

end Sys2Proof
end

