-- ==== Sys2Proof/Safety.lean ====
section
/-! DEFINITION. The invariant of a Core, in the terms the statements use. -/

namespace Sys2Proof.Machine

/-- What a cell may hold: an integer in `Value` (R30), a text no longer than `ILEN_MAX` (R9). -/
def cellFits (cfg : Config) : Cell → Bool
  | .int v => cfg.inValue v
  | .instr t => cfg.fits t

/-- What holds of a Core at creation, after every load and after every step. -/
structure State.Inv (s : State) : Prop where
  /-- The parameters meet the spec's constraints (R7, R8). -/
  cfg_wf : s.cfg.wf = true
  /-- `pc` is in `0 .. CAP` (R18). -/
  pc_le : s.pc ≤ s.cfg.cap
  /-- Every register holds a `Value` (R16). -/
  regs_inValue : ∀ r : Reg, s.cfg.inValue (s.x.get r) = true
  /-- Memory is in its canonical form. -/
  mem_wf : Memory.wf s.mem
  /-- Memory has no cell outside `0 .. CAP-1` (R25). -/
  mem_lt : ∀ p ∈ s.mem, p.1 < s.cfg.cap
  /-- Every listed cell holds what a cell may hold (R30, R9). -/
  mem_fits : ∀ p ∈ s.mem, cellFits s.cfg p.2 = true
  /-- A running Core has no fault recorded (R21: the cause of the last halt since `load`). -/
  no_fault : s.running = true → s.fault = none

/-- The Core is about to fetch the text `t`: it runs, `pc` names a cell, and the cell holds `t` (R66, R67). -/
def State.fetches (s : State) (t : Text) : Prop :=
  s.running = true ∧ s.pc < s.cfg.cap ∧ s.cell s.pc = .instr t

/-- The registers an instruction names, read or written (R17). -/
def registersNamed : Instr → List Reg
  | .mov d _ => [d]
  | .add d r => [d, r]
  | .sub d r => [d, r]
  | .load d _ => [d]
  | .store r _ => [r]
  | .jmp _ => []
  | .jz r _ => [r]
  | .jnz r _ => [r]
  | .hlt => []

/-- The target of a jump (R91). -/
def jumpTarget : Instr → Option Nat
  | .mov _ _ => none
  | .add _ _ => none
  | .sub _ _ => none
  | .load _ _ => none
  | .store _ _ => none
  | .jmp a => some a
  | .jz _ a => some a
  | .jnz _ a => some a
  | .hlt => none

end Sys2Proof.Machine
end

