-- ==== Sys2Proof/Certificates/Slice0/Obligations.lean ====
section
/-! DEFINITION. The statements for the provers: what spec/ says the Core and its Instruction Decoder do. A docstring names the
rules; where a clause rests on a decision D<n> that the spec marks as its own (92_eei_decisions.md), it says so. -/

section

open Sys2Proof Sys2Proof.Machine

/-! ## Integers -/

/-- R11 (decision D1): with `XLEN = INF`, `wrap(v) = v`; with `XLEN = n` bits, `wrap(v)` is a `Value` congruent to `v`
modulo `2^n`, and the only one; it is `sext_XLEN(v)`, and `zext_N(v)` is the residue in `0 .. 2^N-1`. -/
def Obligations.WrapIsTheOnlyCongruentValue : Prop :=
  ∀ (cfg : Config) (v : Int), cfg.wf = true →
    (cfg.xlen = .inf → wrap cfg v = v) ∧
    (∀ n, cfg.xlen = .bits n →
      wrap cfg v = sext n v ∧ cfg.inValue (wrap cfg v) = true ∧ ((2 ^ n : Nat) : Int) ∣ wrap cfg v - v ∧
      ∀ u : Int, cfg.inValue u = true → ((2 ^ n : Nat) : Int) ∣ u - v → u = wrap cfg v) ∧
    (∀ n : Nat, 0 ≤ zext n v ∧ zext n v < ((2 ^ n : Nat) : Int) ∧ ((2 ^ n : Nat) : Int) ∣ zext n v - v)

/-- R81: `SUB Rd Rs` followed by `ADD Rd Rs` restores `x[d]`, for every pair of values, when `s != d`. -/
def Obligations.SubThenAddRestoresTheRegister : Prop :=
  ∀ (s : State) (d r : Reg), s.cfg.wf = true → s.cfg.inValue (s.x.get d) = true → r ≠ d →
    ∃ t, exec (.sub d r) s = .next t ∧ exec (.add d r) t = .next s

/-- R83: `wrap(p - q) = 0` exactly when `p = q`, so `SUB Ra Rb` then `JZ Ra addr` jumps exactly when the two registers
held the same value, even when the subtraction overflows. -/
def Obligations.SubThenJzJumpsExactlyOnEqualRegisters : Prop :=
  ∀ (s : State) (a b : Reg) (addr : Nat), s.cfg.wf = true → a ≠ b → addr < s.cfg.cap →
    s.cfg.inValue (s.x.get a) = true → s.cfg.inValue (s.x.get b) = true →
    ∃ t, exec (.sub a b) s = .next t ∧
      exec (.jz a addr) t = .next (if s.x.get a = s.x.get b then t.setPc addr else t)

/-! ## Decoding -/

/-- R48: for every set of separators, each token is a nonempty run of bytes outside the set; a nonempty run of such
bytes is one token; a nonempty run of separators anywhere cuts the text (so runs collapse, and separators at the two
ends are ignored); the empty text has no token. These facts determine the tokens of every text. -/
def Obligations.TokensAreTheMaximalRuns : Prop :=
  ∀ ws : List Byte,
    tokens ws [] = [] ∧
    (∀ t : Text, ∀ u ∈ tokens ws t, u ≠ [] ∧ ∀ b ∈ u, b ∉ ws) ∧
    (∀ u : Text, u ≠ [] → (∀ b ∈ u, b ∉ ws) → tokens ws u = [u]) ∧
    (∀ a w b : Text, w ≠ [] → (∀ c ∈ w, c ∈ ws) → tokens ws (a ++ w ++ b) = tokens ws a ++ tokens ws b)

/-- R51 (decision D9): a valid register operand is exactly `'R'` and a digit 0 to 3, and its index is the digit's value; a
well-formed token with index 4 to 9 is out of range; every other token is refused too, with the same fault. -/
def Obligations.RegisterOperandsAreRAndADigit : Prop :=
  ∀ t : Text,
    (∀ r : Reg, regOperand t = .ok r ↔ t = [0x52#8, BitVec.ofNat 8 (0x30 + r.val)]) ∧
    (regOperand t = .error .registerOutOfRange ↔
      ∃ k, 4 ≤ k ∧ k ≤ 9 ∧ t = [0x52#8, BitVec.ofNat 8 (0x30 + k)]) ∧
    (∀ e, regOperand t = .error e → causeOf e = .invalidOperand)

/-- R52 (decision D10): a text is an integer literal exactly when it is one or more decimal digits, perhaps after a
single `'-'`; its value is the number the digits denote in base 10, negated after a `'-'`. -/
def Obligations.LiteralsAreSignedDecimalNumerals : Prop :=
  ∀ (t : Text) (v : Int),
    literal t = some v ↔
      ∃ ds : List (Fin 10), ds ≠ [] ∧
        ((t = ds.map (fun d => BitVec.ofNat 8 (0x30 + d.val)) ∧ v = ((ds.foldl (fun n d => 10 * n + d.val) 0 : Nat) : Int)) ∨
          (t = 0x2D#8 :: ds.map (fun d => BitVec.ofNat 8 (0x30 + d.val)) ∧
            v = -((ds.foldl (fun n d => 10 * n + d.val) 0 : Nat) : Int)))

/-- R53 (decisions D10, D15): an immediate operand is a literal whose value is a `Value`, taken as it is; any other token
raises `InvalidOperand`. -/
def Obligations.ImmediateOperandsAreLiteralsInValue : Prop :=
  ∀ (cfg : Config) (t : Text),
    (∀ v : Int, immOperand cfg t = .ok v ↔
      literal t = some v ∧ (∀ n, cfg.xlen = .bits n →
        -((2 ^ (n - 1) : Nat) : Int) ≤ v ∧ v ≤ ((2 ^ (n - 1) : Nat) : Int) - 1)) ∧
    (∀ e, immOperand cfg t = .error e → causeOf e = .invalidOperand)

/-- R54: an address operand is a literal with `0 <= v <= CAP-1`, taken as it is; a malformed token, a negative value or a
value `>= CAP` raises `InvalidOperand`. -/
def Obligations.AddressOperandsAreLiteralsBelowCap : Prop :=
  ∀ (cfg : Config) (t : Text),
    (∀ a : Nat, addrOperand cfg t = .ok a ↔ literal t = some (a : Int) ∧ a < cfg.cap) ∧
    ((literal t = none ∨ ∃ v : Int, literal t = some v ∧ (v < 0 ∨ (cfg.cap : Int) ≤ v)) →
      ∃ e, addrOperand cfg t = .error e ∧ causeOf e = .invalidOperand)

/-- R58 (decisions D11 to D13, D28): the order of the checks. No token, or a first token that is none of the nine
mnemonics: `InvalidOpcode`, whatever follows. A mnemonic with the wrong number of tokens, or with an operand token that is
not valid for its kind: `InvalidOperand`. Otherwise the text parses to an instruction of that mnemonic. -/
def Obligations.ParseFollowsTheOrderOfChecks : Prop :=
  ∀ (cfg : Config) (t : Text),
    (tokens cfg.ws t = [] → ∃ e, parse cfg t = .error e ∧ causeOf e = .invalidOpcode) ∧
    (∀ t0 ops, tokens cfg.ws t = t0 :: ops →
      ((∀ o : Opcode, t0 ≠ o.bytes) → ∃ e, parse cfg t = .error e ∧ causeOf e = .invalidOpcode) ∧
      (∀ o : Opcode, t0 = o.bytes →
        (1 + ops.length ≠ o.format.tokenCount → ∃ e, parse cfg t = .error e ∧ causeOf e = .invalidOperand) ∧
        (1 + ops.length = o.format.tokenCount →
          ((∃ p ∈ o.format.operands.zip ops, validOperand cfg p.1 p.2 = false) →
            ∃ e, parse cfg t = .error e ∧ causeOf e = .invalidOperand) ∧
          ((∀ p ∈ o.format.operands.zip ops, validOperand cfg p.1 p.2 = true) →
            ∃ i, parse cfg t = .ok i ∧ i.opcode = o))))

/-- R57: a parsed instruction cannot name an address outside memory or an immediate outside `Value` (a register above 3
it cannot name by its type). -/
def Obligations.ParsedInstructionsAreInRange : Prop :=
  ∀ (cfg : Config) (t : Text) (i : Instr), parse cfg t = .ok i → i.wellFormed cfg = true

/-- R62, R58: the canonical spelling of every well-formed instruction, at every value of every operand, decodes to that
instruction, for every choice of parameters whose separators hold the space and no byte of the spelling. -/
def Obligations.EncodedInstructionsDecodeToThemselves : Prop :=
  ∀ (cfg : Config) (i : Instr), cfg.plainWs = true → i.wellFormed cfg = true → parse cfg (encode i) = .ok i

/-- A few texts written out byte by byte from the spec (S1 to S3, E4 to E9, E11), under the default parameters. -/
def Obligations.SpelledTextsDecode : Prop :=
  parse Config.default [0x4D#8, 0x4F#8, 0x56#8, 0x20#8, 0x52#8, 0x30#8, 0x20#8, 0x31#8, 0x30#8] = .ok (.mov 0 10) ∧
  parse Config.default [0x4A#8, 0x5A#8, 0x20#8, 0x52#8, 0x33#8, 0x20#8, 0x31#8, 0x30#8] = .ok (.jz 3 10) ∧
  parse Config.default [0x48#8, 0x4C#8, 0x54#8] = .ok .hlt ∧
  parse Config.default [0x41#8, 0x44#8, 0x44#8, 0x20#8, 0x52#8, 0x30#8, 0x20#8, 0x52#8, 0x31#8] = .ok (.add 0 1) ∧
  parse Config.default [0x53#8, 0x55#8, 0x42#8, 0x20#8, 0x52#8, 0x33#8, 0x20#8, 0x52#8, 0x33#8] = .ok (.sub 3 3) ∧
  parse Config.default [0x4C#8, 0x4F#8, 0x41#8, 0x44#8, 0x20#8, 0x52#8, 0x32#8, 0x20#8, 0x32#8, 0x35#8, 0x35#8] =
    .ok (.load 2 255) ∧
  parse Config.default [0x53#8, 0x54#8, 0x4F#8, 0x52#8, 0x45#8, 0x20#8, 0x52#8, 0x31#8, 0x20#8, 0x30#8] =
    .ok (.store 1 0) ∧
  parse Config.default [0x4A#8, 0x4D#8, 0x50#8, 0x20#8, 0x30#8] = .ok (.jmp 0) ∧
  parse Config.default [0x4A#8, 0x4E#8, 0x5A#8, 0x20#8, 0x52#8, 0x31#8, 0x20#8, 0x33#8] = .ok (.jnz 1 3) ∧
  parse Config.default [0x4D#8, 0x4F#8, 0x56#8, 0x20#8, 0x52#8, 0x30#8, 0x20#8, 0x2D#8, 0x35#8] = .ok (.mov 0 (-5))

/-! ## The instructions

Each statement says what `exec` answers for in-range operands, and what the step that fetches a text with the mnemonic's
bytes as its first token answers for EVERY sequence of operand tokens; `s.advance` is the state whose `pc` is `a + 1`. -/

/-- R77, MOV (the literal grammar and the range fault are decisions D10 to D12 and D15). -/
def Obligations.MovWritesTheImmediate : Prop :=
  ∀ s : State,
    (∀ (d : Reg) (imm : Int), s.cfg.inValue imm = true → exec (.mov d imm) s = .next (s.setReg d imm)) ∧
    (∀ (t : Text) (ops : List Text), s.fetches t → tokens s.cfg.ws t = [0x4D#8, 0x4F#8, 0x56#8] :: ops →
      step s =
        match ops with
        | [t1, t2] =>
          match regOperand t1, immOperand s.cfg t2 with
          | .ok d, .ok imm => .next (s.advance.setReg d imm)
          | _, _ => .next (s.advance.enterFault .invalidOperand)
        | _ => .next (s.advance.enterFault .invalidOperand))

/-- R79, ADD: both registers are read before `x[d]` is written; the exact sum is reduced by `wrap` (decision D1). -/
def Obligations.AddWritesTheWrappedSum : Prop :=
  ∀ s : State,
    (∀ d r : Reg, exec (.add d r) s = .next (s.setReg d (wrap s.cfg (s.x.get d + s.x.get r)))) ∧
    (∀ (t : Text) (ops : List Text), s.fetches t → tokens s.cfg.ws t = [0x41#8, 0x44#8, 0x44#8] :: ops →
      step s =
        match ops with
        | [t1, t2] =>
          match regOperand t1, regOperand t2 with
          | .ok d, .ok r => .next (s.advance.setReg d (wrap s.cfg (s.x.get d + s.x.get r)))
          | _, _ => .next (s.advance.enterFault .invalidOperand)
        | _ => .next (s.advance.enterFault .invalidOperand))

/-- R80, SUB: `Rd` minus `Rs`, in that order, reduced by `wrap` (decision D1). -/
def Obligations.SubWritesTheWrappedDifference : Prop :=
  ∀ s : State,
    (∀ d r : Reg, exec (.sub d r) s = .next (s.setReg d (wrap s.cfg (s.x.get d - s.x.get r)))) ∧
    (∀ (t : Text) (ops : List Text), s.fetches t → tokens s.cfg.ws t = [0x53#8, 0x55#8, 0x42#8] :: ops →
      step s =
        match ops with
        | [t1, t2] =>
          match regOperand t1, regOperand t2 with
          | .ok d, .ok r => .next (s.advance.setReg d (wrap s.cfg (s.x.get d - s.x.get r)))
          | _, _ => .next (s.advance.enterFault .invalidOperand)
        | _ => .next (s.advance.enterFault .invalidOperand))

/-- R84, LOAD: the whole integer of the cell; an instruction cell raises `InvalidOperand` (decision D5). -/
def Obligations.LoadReadsAnIntegerCell : Prop :=
  ∀ s : State,
    (∀ (d : Reg) (a : Nat) (v : Int), a < s.cfg.cap → s.cell a = .int v → exec (.load d a) s = .next (s.setReg d v)) ∧
    (∀ (d : Reg) (a : Nat) (u : Text), a < s.cfg.cap → s.cell a = .instr u →
      exec (.load d a) s = .next (s.enterFault .invalidOperand)) ∧
    (∀ (t : Text) (ops : List Text), s.fetches t → tokens s.cfg.ws t = [0x4C#8, 0x4F#8, 0x41#8, 0x44#8] :: ops →
      step s =
        match ops with
        | [t1, t2] =>
          match regOperand t1, addrOperand s.cfg t2 with
          | .ok d, .ok a =>
            match s.cell a with
            | .int v => .next (s.advance.setReg d v)
            | .instr _ => .next (s.advance.enterFault .invalidOperand)
          | _, _ => .next (s.advance.enterFault .invalidOperand)
        | _ => .next (s.advance.enterFault .invalidOperand))

/-- R85, STORE: the cell becomes `Int(x[s])`, whatever it held (over an instruction text: decision D6). -/
def Obligations.StoreWritesTheRegisterToTheCell : Prop :=
  ∀ s : State,
    (∀ (r : Reg) (a : Nat), a < s.cfg.cap → exec (.store r a) s = .next (s.setCell a (.int (s.x.get r)))) ∧
    (∀ (t : Text) (ops : List Text), s.fetches t → tokens s.cfg.ws t = [0x53#8, 0x54#8, 0x4F#8, 0x52#8, 0x45#8] :: ops →
      step s =
        match ops with
        | [t1, t2] =>
          match regOperand t1, addrOperand s.cfg t2 with
          | .ok r, .ok a => .next (s.advance.setCell a (.int (s.x.get r)))
          | _, _ => .next (s.advance.enterFault .invalidOperand)
        | _ => .next (s.advance.enterFault .invalidOperand))

/-- R88, JMP: `pc` becomes the address; on a fault it stays `a + 1`. -/
def Obligations.JmpSetsThePc : Prop :=
  ∀ s : State,
    (∀ a : Nat, a < s.cfg.cap → exec (.jmp a) s = .next (s.setPc a)) ∧
    (∀ (t : Text) (ops : List Text), s.fetches t → tokens s.cfg.ws t = [0x4A#8, 0x4D#8, 0x50#8] :: ops →
      step s =
        match ops with
        | [t1] =>
          match addrOperand s.cfg t1 with
          | .ok a => .next (s.advance.setPc a)
          | .error _ => .next (s.advance.enterFault .invalidOperand)
        | _ => .next (s.advance.enterFault .invalidOperand))

/-- R89, JZ: `pc` becomes the address when the register is zero, else stays `a + 1`; the address is checked either way
(decision D14). -/
def Obligations.JzJumpsOnZero : Prop :=
  ∀ s : State,
    (∀ (r : Reg) (a : Nat), a < s.cfg.cap →
      exec (.jz r a) s = .next (if s.x.get r = 0 then s.setPc a else s)) ∧
    (∀ (t : Text) (ops : List Text), s.fetches t → tokens s.cfg.ws t = [0x4A#8, 0x5A#8] :: ops →
      step s =
        match ops with
        | [t1, t2] =>
          match regOperand t1, addrOperand s.cfg t2 with
          | .ok r, .ok a => .next (if s.x.get r = 0 then s.advance.setPc a else s.advance)
          | _, _ => .next (s.advance.enterFault .invalidOperand)
        | _ => .next (s.advance.enterFault .invalidOperand))

/-- R90, JNZ: `pc` becomes the address when the register is not zero, else stays `a + 1`; the address is checked either
way (decision D14). -/
def Obligations.JnzJumpsOnNonzero : Prop :=
  ∀ s : State,
    (∀ (r : Reg) (a : Nat), a < s.cfg.cap →
      exec (.jnz r a) s = .next (if s.x.get r ≠ 0 then s.setPc a else s)) ∧
    (∀ (t : Text) (ops : List Text), s.fetches t → tokens s.cfg.ws t = [0x4A#8, 0x4E#8, 0x5A#8] :: ops →
      step s =
        match ops with
        | [t1, t2] =>
          match regOperand t1, addrOperand s.cfg t2 with
          | .ok r, .ok a => .next (if s.x.get r ≠ 0 then s.advance.setPc a else s.advance)
          | _, _ => .next (s.advance.enterFault .invalidOperand)
        | _ => .next (s.advance.enterFault .invalidOperand))

/-- R94, HLT: `running` becomes false; `fault`, the registers and memory are unchanged and `pc` stays `a + 1`; an
operand raises `InvalidOperand` (decision D11). -/
def Obligations.HltStopsTheCoreNormally : Prop :=
  ∀ s : State,
    exec .hlt s = .next { s with running := false } ∧
    (∀ (t : Text) (ops : List Text), s.fetches t → tokens s.cfg.ws t = [0x48#8, 0x4C#8, 0x54#8] :: ops →
      step s =
        match ops with
        | [] => .next { s with pc := s.pc + 1, running := false }
        | _ => .next (s.advance.enterFault .invalidOperand))

/-- R32: an address outside `0 .. CAP-1` in a LOAD, STORE, JMP, JZ or JNZ raises `InvalidOperand` before any effect and is
never clamped; the same of an instruction term with an operand out of range, which `parse` never yields (log entry 10). -/
def Obligations.OutOfRangeReferencesRaiseInvalidOperand : Prop :=
  (∀ (s : State) (t t0 u : Text) (ops : List Text) (v : Int), s.fetches t → tokens s.cfg.ws t = t0 :: ops →
    t0 ∈ [Opcode.load.bytes, Opcode.store.bytes, Opcode.jmp.bytes, Opcode.jz.bytes, Opcode.jnz.bytes] →
    ops.getLast? = some u → literal u = some v → ¬ (0 ≤ v ∧ v ≤ (s.cfg.cap : Int) - 1) →
    step s = .next (s.advance.enterFault .invalidOperand)) ∧
  (∀ (s : State) (i : Instr), i.wellFormed s.cfg = false → exec i s = .next (s.enterFault .invalidOperand))

/-! ## Frames -/

/-- R17, R68: MOV, ADD, SUB and LOAD change no register but `Rd`, no cell, not `pc`; `running` and `fault` only by
entering `InvalidOperand`. -/
def Obligations.RegisterWritersFrame : Prop :=
  ∀ (i : Instr) (d : Reg),
    ((∃ imm, i = .mov d imm) ∨ (∃ r, i = .add d r) ∨ (∃ r, i = .sub d r) ∨ (∃ a, i = .load d a)) →
    ∀ s t : State, exec i s = .next t →
      (∀ r, r ≠ d → t.x.get r = s.x.get r) ∧ (∀ a, t.cell a = s.cell a) ∧ t.pc = s.pc ∧ t.cfg = s.cfg ∧
      ((t.running = s.running ∧ t.fault = s.fault) ∨ t = s.enterFault .invalidOperand)

/-- R17, R68: STORE changes no register, no cell but the one its address names, not `pc`; `running` and `fault` only by
entering `InvalidOperand`. -/
def Obligations.StoreFrame : Prop :=
  ∀ (r : Reg) (a : Nat) (s t : State), exec (.store r a) s = .next t →
    t.x = s.x ∧ (∀ b, b ≠ a → t.cell b = s.cell b) ∧ t.pc = s.pc ∧ t.cfg = s.cfg ∧
    ((t.running = s.running ∧ t.fault = s.fault) ∨ t = s.enterFault .invalidOperand)

/-- R17, R68: JMP, JZ and JNZ change no register and no cell; `pc` stays or becomes the address; `running` and `fault` only
by entering `InvalidOperand`. -/
def Obligations.JumpsFrame : Prop :=
  ∀ (i : Instr) (a : Nat), jumpTarget i = some a →
    ∀ s t : State, exec i s = .next t →
      t.x = s.x ∧ (∀ b, t.cell b = s.cell b) ∧ (t.pc = s.pc ∨ t.pc = a) ∧ t.cfg = s.cfg ∧
      ((t.running = s.running ∧ t.fault = s.fault) ∨ t = s.enterFault .invalidOperand)

/-- R17, R94: HLT changes no register, no cell, not `pc` and not `fault`. -/
def Obligations.HltFrame : Prop :=
  ∀ s t : State, exec .hlt s = .next t →
    t.x = s.x ∧ (∀ a, t.cell a = s.cell a) ∧ t.pc = s.pc ∧ t.fault = s.fault ∧ t.cfg = s.cfg

/-- R17: no instruction reads or writes a register it does not name. A register it does not name may hold any value:
the instruction does the same and leaves that value there. -/
def Obligations.InstructionsIgnoreRegistersTheyDoNotName : Prop :=
  ∀ (i : Instr) (r : Reg) (v : Int) (s t : State), r ∉ registersNamed i → exec i s = .next t →
    exec i (s.setReg r v) = .next (t.setReg r v)

/-- R102: no instruction raises `InvalidOpcode` or `EndOfMemory`; what it raises is `InvalidOperand`. -/
def Obligations.InstructionsRaiseOnlyInvalidOperand : Prop :=
  ∀ (i : Instr) (s t : State), exec i s = .next t → t.fault ≠ s.fault → t = s.enterFault .invalidOperand

/-! ## Memory -/

/-- R34 (decision D6): `MemWrite` replaces one whole cell, whatever it held; no other cell and no other state changes, and
the canonical form of the model's memory is kept. -/
def Obligations.MemWriteReplacesOneCell : Prop :=
  ∀ (s : State) (a : Nat) (v : Int),
    (memWrite s a v).cell a = .int v ∧ (∀ b, b ≠ a → (memWrite s a v).cell b = s.cell b) ∧
    (memWrite s a v).x = s.x ∧ (memWrite s a v).pc = s.pc ∧ (memWrite s a v).running = s.running ∧
    (memWrite s a v).fault = s.fault ∧ (Memory.wf s.mem → Memory.wf (memWrite s a v).mem)

/-- R33 (decision D5): `MemRead` gives the integer of an integer cell, whole, and raises `InvalidOperand` on an instruction
cell; after a `MemWrite` it gives the value written there. -/
def Obligations.MemReadGivesTheIntegerLastWritten : Prop :=
  ∀ (s : State) (a : Nat),
    (∀ v, s.cell a = .int v → memRead s.mem a = .ok v) ∧
    (∀ u, s.cell a = .instr u → memRead s.mem a = .error .invalidOperand) ∧
    (∀ v, memRead (memWrite s a v).mem a = .ok v) ∧
    (∀ b v, b ≠ a → memRead (memWrite s b v).mem a = memRead s.mem a)

/-- R44, R128: a STORE to the cell of the next instruction is seen by the very next fetch: that step raises
`InvalidOpcode` (decisions D4, D6). -/
def Obligations.StoreIsSeenByTheNextFetch : Prop :=
  ∀ (s : State) (txt : Text) (r : Reg), s.fetches txt → parse s.cfg txt = .ok (.store r (s.pc + 1)) →
    ∃ t, step s = .next t ∧ t.cell (s.pc + 1) = .int (s.x.get r) ∧ t.pc = s.pc + 1 ∧
      step t = .next (t.advance.enterFault .invalidOpcode)

/-- R44: a program can destroy an instruction and never create one. The step that fetches a STORE to a cell that holds a text
leaves `Int(x[s])` there (STORE over a text: decision D6); a text in a cell after any step was there before. -/
def Obligations.NoStepCreatesAnInstructionCell : Prop :=
  (∀ (s : State) (txt u : Text) (r : Reg) (a : Nat), s.fetches txt → parse s.cfg txt = .ok (.store r a) →
    s.cell a = .instr u → ∃ t, step s = .next t ∧ t.cell a = .int (s.x.get r)) ∧
  (∀ (s t : State) (a : Nat) (txt : Text), step s = .next t → t.cell a = .instr txt → s.cell a = .instr txt)

/-- R31: of the instructions, STORE alone writes memory, and only the cell its address names. -/
def Obligations.OnlyStoreWritesMemory : Prop :=
  ∀ (s t : State) (a : Nat), step s = .next t → t.cell a ≠ s.cell a →
    ∃ txt r, s.fetches txt ∧ parse s.cfg txt = .ok (.store r a) ∧ t.cell a = .int (s.x.get r)

/-! ## The step -/

/-- A running Core whose cell at `pc` holds a text that parses runs exactly that instruction, at the state whose `pc` is
advanced by one (R66, R67). -/
def Obligations.StepRunsTheFetchedInstruction : Prop :=
  ∀ (s : State) (txt : Text) (i : Instr), s.fetches txt → parse s.cfg txt = .ok i → step s = exec i s.advance

/-- R57, R67: executing a text is applying the one mutation that the decoder, a pure function of the text, the registers
and the memory, yields, or entering the fault it raises; the decoder sees no `pc`, `running` or `fault`. -/
def Obligations.ExecutionAppliesTheDecodersMutation : Prop :=
  ∀ (s : State) (t : Text),
    decodeExecute (.instr t) s =
      match decoder s.cfg s.x s.mem t with
      | .ok (.setReg i v) => .next (s.setReg i v)
      | .ok (.setMem a v) => .next (s.setCell a (.int v))
      | .ok (.setPC a) => .next (s.setPc a)
      | .ok .halt => .next { s with running := false }
      | .ok .noChange => .next s
      | .error c => .next (s.enterFault c)

/-- R66, R100: a fetch with `pc >= CAP` raises `EndOfMemory`; `pc` is left as it is (the name and the `pc`: decision D17). -/
def Obligations.FetchPastMemoryRaisesEndOfMemory : Prop :=
  ∀ s : State, s.running = true → s.cfg.cap ≤ s.pc →
    step s = .next { s with running := false, fault := some .endOfMemory }

/-- R59, R67: the fault of every illegal cell, with `pc` at `a + 1`: an integer raises `InvalidOpcode` (decision D4); a
text that does not parse raises the fault R58 names for it. -/
def Obligations.IllegalCellsRaiseTheirFault : Prop :=
  ∀ s : State, s.running = true → s.pc < s.cfg.cap →
    (∀ v, s.cell s.pc = .int v → step s = .next (s.advance.enterFault .invalidOpcode)) ∧
    (∀ txt e, s.cell s.pc = .instr txt → parse s.cfg txt = .error e →
      step s = .next (s.advance.enterFault (causeOf e)))

/-- R104: fault entry, wherever a fault is raised, sets `running` to false and `fault` to the cause raised, and that is all:
registers, memory and `pc` keep the values they had. R67 says what is raised: on an integer `InvalidOpcode` (decision D4, log
entry 12), on a text the decoder's own cause; `fetch` raises its own (R66). `decodeExecute` changes `fault` only so. -/
def Obligations.FaultEntryHaltsAndRecordsTheCause : Prop :=
  (∀ (v : Int) (s : State), decodeExecute (.int v) s = .next { s with running := false, fault := some .invalidOpcode }) ∧
  (∀ (txt : Text) (s : State) (f : Cause), decoder s.cfg s.x s.mem txt = .error f →
    decodeExecute (.instr txt) s = .next { s with running := false, fault := some f }) ∧
  (∀ (c : Cell) (s t : State), decodeExecute c s = .next t → t.fault ≠ s.fault →
    ∃ f, t = { s with running := false, fault := some f } ∧
      ((∃ v, c = .int v ∧ f = .invalidOpcode) ∨ ∃ txt, c = .instr txt ∧ decoder s.cfg s.x s.mem txt = .error f)) ∧
  (∀ (s : State) (f : Cause), s.running = true → fetch s = .error f →
    step s = .next { s with running := false, fault := some f })

/-- R69, R97 (decisions D16, D17): a step that enters a fault changes nothing but `running`, `fault` and `pc`, which is
advanced unless `fetch` itself raised. -/
def Obligations.FaultingStepsChangeNothingElse : Prop :=
  ∀ (s t : State) (c : Cause), s.fault = none → step s = .next t → t.fault = some c →
    t.x = s.x ∧ t.mem = s.mem ∧ t.cfg = s.cfg ∧ t.running = false ∧
    (c = .endOfMemory ↔ s.cfg.cap ≤ s.pc) ∧ t.pc = (if s.cfg.cap ≤ s.pc then s.pc else s.pc + 1)

/-- R70: a step of a running Core always answers a next state, and ends in exactly one of three ways: the Core still
runs; HLT completed, with no fault; a fault was entered. -/
def Obligations.EveryStepEndsInOneOfThreeWays : Prop :=
  ∀ s : State, s.running = true → s.fault = none →
    ∃ t, step s = .next t ∧
      ((t.running = true ∧ t.fault = none) ∨
        (t.running = false ∧ t.fault = none ∧ ∃ txt, s.fetches txt ∧ parse s.cfg txt = .ok .hlt) ∨
        (t.running = false ∧ ∃ c, t.fault = some c))

/-- R70, R120: a Core has a next step exactly when `running` is true. An idle Core's step is the model's stuck state
`Fault.idle` (log entry 9). -/
def Obligations.ACoreStepsExactlyWhenRunning : Prop :=
  ∀ s : State, ((∃ t, step s = .next t) ↔ s.running = true) ∧ (step s = .fault .idle ↔ s.running = false)

/-- R19, R91, R93: after a step `pc` is one more than before, or the target of the jump executed, which names a cell; it
stays only when `fetch` raised `EndOfMemory`. -/
def Obligations.PcAfterEveryStep : Prop :=
  ∀ s t : State, step s = .next t →
    (s.cfg.cap ≤ s.pc ∧ t.pc = s.pc) ∨ (s.pc < s.cfg.cap ∧ t.pc = s.pc + 1) ∨
    (∃ txt i a, s.fetches txt ∧ parse s.cfg txt = .ok i ∧ jumpTarget i = some a ∧ t.pc = a ∧ a < s.cfg.cap)

/-- R27: `CAP`, `XLEN`, `WS` and `ILEN_MAX` are parameters of the step: no step and no load changes them. -/
def Obligations.ParametersNeverChange : Prop :=
  (∀ s t : State, step s = .next t → t.cfg = s.cfg) ∧
  (∀ (P : List Text) (s t : State), load P s = .loaded t → t.cfg = s.cfg)

/-! ## Creation, load and run -/

/-- R28, R121: a newly created Core is idle; the zero registers, `pc`, `fault` and cells are decision D21, and the memory
capacity of the model's reset is the model's choice (log entry 2). -/
def Obligations.CreatedCoreIsIdleAndZero : Prop :=
  State.reset.running = false ∧ State.reset.pc = 0 ∧ State.reset.fault = none ∧
  (∀ r : Reg, State.reset.x.get r = 0) ∧ (∀ a : Nat, State.reset.cell a = .int 0) ∧
  step State.reset = .fault .idle

/-- The invariant holds of a newly created Core. -/
def Obligations.CreatedCoreMeetsTheInvariant : Prop := State.reset.Inv

/-- The invariant (the parameters are legal, `pc` is in `0 .. CAP`, registers and cells hold values of their types,
memory is canonical and inside `0 .. CAP-1`, a running Core has no fault recorded) is kept by every step of every Core. -/
def Obligations.EveryStepKeepsTheInvariant : Prop :=
  ∀ s t : State, s.Inv → step s = .next t → t.Inv

/-- R65, R122: `load` on an idle Core. A program longer than `CAP` fails with `ProgramTooLarge` and changes nothing
(decision D19); any other is placed verbatim from cell 0, every other cell is `Int(0)`, registers are 0, `pc` is 0,
`fault` is `None` (decision D18), the Core runs, and the texts are not parsed. A running Core is not loaded (decision D20);
texts longer than `ILEN_MAX` are outside the statement (log entry 11). -/
def Obligations.LoadResetsTheCoreAndPlacesTheProgram : Prop :=
  ∀ (P : List Text) (s : State),
    (s.running = true → load P s = .refused .loadWhileRunning) ∧
    (s.running = false → s.cfg.cap < P.length → load P s = .programTooLarge s) ∧
    (s.running = false → P.length ≤ s.cfg.cap → (∀ p ∈ P, s.cfg.fits p = true) →
      ∃ t, load P s = .loaded t ∧ t.running = true ∧ t.fault = none ∧ t.pc = 0 ∧ t.cfg = s.cfg ∧
        (∀ r : Reg, t.x.get r = 0) ∧
        (∀ (a : Nat) (h : a < P.length), t.cell a = .instr P[a]) ∧ (∀ a : Nat, P.length ≤ a → t.cell a = .int 0))

/-- A loaded Core meets the invariant, whatever the state before. -/
def Obligations.LoadedCoreMeetsTheInvariant : Prop :=
  ∀ (P : List Text) (s t : State), s.cfg.wf = true → load P s = .loaded t → t.Inv

/-- R71 (decision D26): `run()` on an idle Core performs no step and changes nothing. -/
def Obligations.RunOnAnIdleCoreChangesNothing : Prop :=
  ∀ (n : Nat) (s : State), s.running = false → run n s = some s

/-- R71, R72: when `run` ends, the Core is idle and more fuel changes nothing: the end of a run is one state. -/
def Obligations.TheEndOfARunIsOneIdleState : Prop :=
  ∀ (n : Nat) (s t : State), run n s = some t →
    t.running = false ∧ step t = .fault .idle ∧ ∀ m, run (n + m) s = some t

/-- R72, R94: a run that ends with no fault executed a HLT as its last step: a state `u` that the run reached fetched a text
that parses to HLT, its step is the end of the run, and `pc` is the address after the HLT, which is still in its cell. -/
def Obligations.NormalEndsStandAfterTheHltExecuted : Prop :=
  ∀ (n : Nat) (s t : State), s.running = true → s.fault = none → run n s = some t → t.fault = none →
    ∃ m u txt, m < n ∧ steps m s = some u ∧ u.fetches txt ∧ parse u.cfg txt = .ok .hlt ∧ step u = .next t ∧
      t.pc = u.pc + 1 ∧ t.cell u.pc = .instr txt

/-- R72, R105: a run that ends in a fault shows its cause: `EndOfMemory` with `pc = CAP`; any other with `pc` one past the
faulting cell, which is still there: an integer or a text without a mnemonic for `InvalidOpcode`, a text with a bad
operand or a LOAD of an instruction cell for `InvalidOperand`. -/
def Obligations.FaultedEndsShowTheFaultingCell : Prop :=
  ∀ (n : Nat) (s t : State) (c : Cause), s.Inv → s.running = true → run n s = some t → t.fault = some c →
    (c = .endOfMemory ∧ t.pc = t.cfg.cap) ∨
    (∃ a, t.pc = a + 1 ∧ a < t.cfg.cap ∧
      ((c = .invalidOpcode ∧ ∃ v, t.cell a = .int v) ∨
        (∃ txt e, t.cell a = .instr txt ∧ parse t.cfg txt = .error e ∧ c = causeOf e) ∨
        (∃ txt d b u, t.cell a = .instr txt ∧ parse t.cfg txt = .ok (.load d b) ∧ t.cell b = .instr u ∧
          c = .invalidOperand)))

/-- Every state a loaded program reaches at the end of a run meets the invariant. -/
def Obligations.RunsOfLoadedProgramsKeepTheInvariant : Prop :=
  ∀ (P : List Text) (n : Nat) (s t u : State), s.cfg.wf = true → load P s = .loaded t → run n t = some u → u.Inv

/-- R76: the final state depends on the program and the parameters alone. A program loaded into any idle Core with equal
parameters starts from the same state `t`, whatever that Core held; so does the program loaded again after its run; and
every run from there that ends, ends in the same state. -/
def Obligations.ReloadingRepeatsTheRun : Prop :=
  ∀ (P : List Text) (s s' t : State), load P s = .loaded t → s'.cfg = s.cfg → s'.running = false →
    ∃ t', load P s' = .loaded t' ∧ t' = t ∧
      ∀ n u, run n t = some u → run n t' = some u ∧ load P u = .loaded t ∧ ∀ m w, run m t' = some w → w = u

/-- R106: a fault is terminal: the Core has no step and `run` does nothing, and only a new `load` lets it
run again, which clears the fault and everything else. -/
def Obligations.FaultsAreTerminalUntilTheNextLoad : Prop :=
  ∀ s : State, s.Inv → s.fault ≠ none →
    step s = .fault .idle ∧ (∀ n, run n s = some s) ∧
    (∀ (P : List Text) (t : State), load P s = .loaded t →
      t.running = true ∧ t.fault = none ∧ t.pc = 0 ∧ (∀ r : Reg, t.x.get r = 0) ∧
      (∀ a : Nat, P.length ≤ a → t.cell a = .int 0))

/-! ## A pool of Cores -/

/-- R46: a step of one Core, a fault of it included, and a load into it change no other Core. A load that fails with
`ProgramTooLarge` changes no Core at all, the one it was meant for included (R65, R101; decision D19, log entry 12). -/
def Obligations.OneCoreChangesNoOther : Prop :=
  ∀ (p q : Pool) (j k : Nat) (P : List Text), j ≠ k →
    (p.stepAt k = .next q → q[j]? = p[j]?) ∧
    (p.loadAt k P = .loaded q → q[j]? = p[j]?) ∧
    (p.loadAt k P = .programTooLarge q → q = p)

/-- R116: Cores step independently: two steps of different Cores can be taken in either order and give the same pool. -/
def Obligations.CoresStepIndependently : Prop :=
  ∀ (p q r : Pool) (j k : Nat), j ≠ k → p.stepAt j = .next q → q.stepAt k = .next r →
    ∃ q', p.stepAt k = .next q' ∧ q'.stepAt j = .next r

/-- R70, R113 (decision D20), R65: a Core of a pool has the transitions it has alone. Running, it steps and is not loaded;
idle, it does not step (the model's stuck state, log entry 9), and it is loaded exactly as `load` says, a program longer than
`CAP` changing nothing (R101; decision D19, log entry 12). A pool has no other Core (log entry 13). -/
def Obligations.APoolActsAsItsCores : Prop :=
  ∀ (p : Pool) (k : Nat) (P : List Text),
    (p[k]? = none → p.stepAt k = .refused .noSuchCore ∧ p.loadAt k P = .refused .noSuchCore) ∧
    (∀ s, p[k]? = some s → s.running = true →
      (∃ t, step s = .next t ∧ p.stepAt k = .next (p.set k t)) ∧ p.loadAt k P = .refused .loadWhileRunning) ∧
    (∀ s, p[k]? = some s → s.running = false →
      p.stepAt k = .fault .idle ∧
      (s.cfg.cap < P.length → p.loadAt k P = .programTooLarge p) ∧
      (P.length ≤ s.cfg.cap → (∀ t ∈ P, s.cfg.fits t = true) →
        ∃ t, load P s = .loaded t ∧ p.loadAt k P = .loaded (p.set k t)))

end
end

