-- ==== Sys2Proof/Laws/Decode.lean ====
section
/-! SUPPORT. The laws of the tokeniser, of the token grammar and of the canonical spelling. -/

namespace Sys2Proof

/-! ## Tokens -/

theorem tokens_nil (ws : List Byte) : tokens ws [] = [] := rfl

/-- A separator byte at the front is skipped. -/
theorem leadAndTokens_sep {ws : List Byte} {b : Byte} (h : b ∈ ws) (t : Text) :
    leadAndTokens ws (b :: t) = ([], tokens ws t) := by
  simp [leadAndTokens, tokens, h]

theorem tokens_sep {ws : List Byte} {b : Byte} (h : b ∈ ws) (t : Text) : tokens ws (b :: t) = tokens ws t := by
  rw [tokens, leadAndTokens_sep h]
  simp

/-- Bytes that are no separators lengthen the leading run. -/
theorem leadAndTokens_append {ws : List Byte} {u : Text} (h : ∀ b ∈ u, b ∉ ws) (t : Text) :
    leadAndTokens ws (u ++ t) = (u ++ (leadAndTokens ws t).1, (leadAndTokens ws t).2) := by
  induction u with
  | nil => rfl
  | cons b u ih =>
    have hb : b ∉ ws := h b (by simp)
    have := ih fun c hc => h c (by simp [hc])
    simp [leadAndTokens, hb, this]

/-- A run of token bytes before a separator is the first token. -/
theorem tokens_run_sep {ws : List Byte} {u : Text} {b : Byte} (hu : ∀ c ∈ u, c ∉ ws) (hne : u ≠ []) (hb : b ∈ ws)
    (t : Text) : tokens ws (u ++ b :: t) = u :: tokens ws t := by
  rw [tokens, leadAndTokens_append hu, leadAndTokens_sep hb]
  simp [hne]

/-- A run of token bytes is one token. -/
theorem tokens_run {ws : List Byte} {u : Text} (hu : ∀ c ∈ u, c ∉ ws) (hne : u ≠ []) : tokens ws u = [u] := by
  have := leadAndTokens_append hu []
  rw [List.append_nil] at this
  rw [tokens, this]
  simp [leadAndTokens, hne]

/-- Tokens joined by single spaces are the tokens of the text (R48, R62). -/
theorem tokens_spaced {ws : List Byte} (hs : 0x20#8 ∈ ws) (ts : List Text) (u : Text)
    (hu : ∀ c ∈ u, c ∉ ws) (hne : u ≠ []) (h : ∀ t ∈ ts, t ≠ [] ∧ ∀ c ∈ t, c ∉ ws) :
    tokens ws (u ++ spaced ts) = u :: ts := by
  induction ts generalizing u with
  | nil => simp [spaced, tokens_run hu hne]
  | cons t ts ih =>
    have ht := h t (by simp)
    rw [spaced, List.cons_append, tokens_run_sep hu hne hs, ih t ht.2 ht.1 fun x hx => h x (by simp [hx])]

/-! ## Mnemonics -/

theorem opcodeOf_bytes (o : Opcode) : opcodeOf o.bytes = some o := by
  cases o <;> decide

theorem opcodeOf_some {t0 : Text} {o : Opcode} (h : opcodeOf t0 = some o) : t0 = o.bytes := by
  have := List.find?_some h
  simpa using (of_decide_eq_true this).symm

/-! ## Literals -/

theorem digitOf_digitByte {n : Nat} (h : n < 10) : digitOf (digitByte n) = some n := by
  match n, h with
  | 0, _ | 1, _ | 2, _ | 3, _ | 4, _ | 5, _ | 6, _ | 7, _ | 8, _ | 9, _ => rfl

/-- Reading the digits of `n` after digits that denote zero gives `n`. -/
theorem digitsFrom_decimalOnto (fuel n : Nat) (rest : Text) (h : n < 10 ^ fuel) :
    digitsFrom 0 (decimalOnto fuel n rest) = digitsFrom n rest := by
  induction fuel generalizing n rest with
  | zero =>
    have : n = 0 := by simpa using h
    subst this; rfl
  | succ fuel ih =>
    rw [decimalOnto]
    split
    · next hn => simp [digitsFrom, digitOf_digitByte hn]
    · rw [ih (n / 10) _ (by rw [Nat.pow_succ] at h; omega)]
      have : n % 10 < 10 := Nat.mod_lt _ (by decide)
      simp only [digitsFrom, digitOf_digitByte this]
      congr 1
      omega

theorem lt_pow_log2 (n : Nat) : n < 10 ^ (n.log2 + 1) :=
  Nat.lt_of_lt_of_le Nat.lt_log2_self (Nat.pow_le_pow_left (by decide) _)

theorem decimalOnto_digits (fuel n : Nat) (rest : Text) :
    ∀ b ∈ decimalOnto fuel n rest, (∃ k, k < 10 ∧ b = digitByte k) ∨ b ∈ rest := by
  induction fuel generalizing n rest with
  | zero => intro b hb; exact .inr hb
  | succ fuel ih =>
    intro b hb
    rw [decimalOnto] at hb
    split at hb
    · next hn =>
      rcases List.mem_cons.mp hb with rfl | hb
      · exact .inl ⟨n, hn, rfl⟩
      · exact .inr hb
    · rcases ih _ _ b hb with hb | hb
      · exact .inl hb
      · rcases List.mem_cons.mp hb with rfl | hb
        · exact .inl ⟨n % 10, Nat.mod_lt _ (by decide), rfl⟩
        · exact .inr hb

/-- Every byte of a decimal numeral is a digit. -/
theorem decimal_digits (n : Nat) : ∀ b ∈ decimal n, ∃ k, k < 10 ∧ b = digitByte k := by
  intro b hb
  rcases decimalOnto_digits _ _ _ b hb with h | h
  · exact h
  · cases h

theorem decimalOnto_ne_nil (fuel n : Nat) (rest : Text) (h : rest ≠ []) : decimalOnto fuel n rest ≠ [] := by
  induction fuel generalizing n rest with
  | zero => exact h
  | succ fuel ih =>
    rw [decimalOnto]
    split
    · simp
    · exact ih _ _ (by simp)

theorem decimal_ne_nil (n : Nat) : decimal n ≠ [] := by
  rw [decimal, decimalOnto]
  split
  · simp
  · exact decimalOnto_ne_nil _ _ _ (by simp)

theorem digits_decimal (n : Nat) : digits (decimal n) = some n := by
  rw [digits, if_neg (decimal_ne_nil n), decimal, digitsFrom_decimalOnto _ _ _ (lt_pow_log2 n)]
  rfl

theorem digitByte_ne_minus {k : Nat} (h : k < 10) : digitByte k ≠ 0x2D#8 := by
  match k, h with
  | 0, _ | 1, _ | 2, _ | 3, _ | 4, _ | 5, _ | 6, _ | 7, _ | 8, _ | 9, _ => decide

theorem literal_decimal (n : Nat) : literal (decimal n) = some (n : Int) := by
  have h := digits_decimal n
  cases hd : decimal n with
  | nil => exact absurd hd (decimal_ne_nil n)
  | cons b ds =>
    obtain ⟨k, hk, hb⟩ := decimal_digits n b (by simp [hd])
    rw [hd] at h
    subst hb
    simp [literal, digitByte_ne_minus hk, h]

/-- Reading an integer's literal token gives the integer. -/
theorem literal_literalToken (v : Int) : literal (literalToken v) = some v := by
  cases v with
  | ofNat n => exact literal_decimal n
  | negSucc n => simp [literalToken, literal, digits_decimal, Int.negSucc_eq]

theorem regOperand_regToken (r : Reg) : regOperand (regToken r) = .ok r := by
  match r with
  | 0 | 1 | 2 | 3 => rfl

theorem immOperand_literalToken {cfg : Config} {v : Int} (h : cfg.inValue v = true) :
    immOperand cfg (literalToken v) = .ok v := by
  simp [immOperand, literal_literalToken, h]

theorem addrOperand_decimal {cfg : Config} {a : Nat} (h : cfg.inMemory a = true) :
    addrOperand cfg (decimal a) = .ok a := by
  simp [addrOperand, literal_decimal, h]

/-! ## What a valid operand says -/

theorem immOperand_ok {cfg : Config} {t : Text} {v : Int} (h : immOperand cfg t = .ok v) :
    literal t = some v ∧ cfg.inValue v = true := by
  simp only [immOperand] at h
  split at h
  · cases h
  · split at h
    · next hv => cases h; exact ⟨by assumption, hv⟩
    · cases h

theorem addrOperand_ok {cfg : Config} {t : Text} {a : Nat} (h : addrOperand cfg t = .ok a) :
    literal t = some (a : Int) ∧ cfg.inMemory a = true := by
  simp only [addrOperand] at h
  split at h
  · cases h
  · next v hl =>
    split at h
    · next hv =>
      cases h
      rw [hl, Int.toNat_of_nonneg hv.1]
      exact ⟨rfl, hv.2⟩
    · cases h

/-! ## Bytes that separate no canonical token -/

theorem plainWs_space {cfg : Config} (h : cfg.plainWs = true) : 0x20#8 ∈ cfg.ws := by
  simp only [Config.plainWs, Bool.and_eq_true, decide_eq_true_eq] at h
  exact h.1

theorem plainWs_not {cfg : Config} (h : cfg.plainWs = true) {b : Byte}
    (hb : (0x30 ≤ b.toNat ∧ b.toNat ≤ 0x39) ∨ (0x41 ≤ b.toNat ∧ b.toNat ≤ 0x5A) ∨ b.toNat = 0x2D) : b ∉ cfg.ws := by
  intro hm
  simp only [Config.plainWs, Bool.and_eq_true, List.all_eq_true] at h
  have := h.2 b hm
  simp only [Bool.not_eq_true', Bool.or_eq_false_iff, decide_eq_false_iff_not] at this
  omega

theorem plainWs_digit {cfg : Config} (h : cfg.plainWs = true) {k : Nat} (hk : k < 10) : digitByte k ∉ cfg.ws := by
  refine plainWs_not h (.inl ?_)
  match k, hk with
  | 0, _ | 1, _ | 2, _ | 3, _ | 4, _ | 5, _ | 6, _ | 7, _ | 8, _ | 9, _ => decide

theorem plainWs_bytes {cfg : Config} (h : cfg.plainWs = true) (o : Opcode) : ∀ b ∈ o.bytes, b ∉ cfg.ws := by
  intro b hb
  refine plainWs_not h (.inr (.inl ?_))
  cases o <;> simp only [Opcode.bytes, List.mem_cons, List.not_mem_nil, or_false] at hb <;>
    rcases hb with rfl | rfl | rfl | rfl | rfl <;> decide

theorem plainWs_regToken {cfg : Config} (h : cfg.plainWs = true) (r : Reg) :
    regToken r ≠ [] ∧ ∀ b ∈ regToken r, b ∉ cfg.ws := by
  refine ⟨by simp [regToken], fun b hb => ?_⟩
  simp only [regToken, List.mem_cons, List.not_mem_nil, or_false] at hb
  rcases hb with rfl | rfl
  · exact plainWs_not h (.inr (.inl (by decide)))
  · exact plainWs_digit h (by omega)

theorem plainWs_decimal {cfg : Config} (h : cfg.plainWs = true) (n : Nat) :
    decimal n ≠ [] ∧ ∀ b ∈ decimal n, b ∉ cfg.ws := by
  refine ⟨decimal_ne_nil n, fun b hb => ?_⟩
  obtain ⟨k, hk, rfl⟩ := decimal_digits n b hb
  exact plainWs_digit h hk

theorem plainWs_literalToken {cfg : Config} (h : cfg.plainWs = true) (v : Int) :
    literalToken v ≠ [] ∧ ∀ b ∈ literalToken v, b ∉ cfg.ws := by
  cases v with
  | ofNat n => exact plainWs_decimal h n
  | negSucc n =>
    refine ⟨by simp [literalToken], fun b hb => ?_⟩
    rcases List.mem_cons.mp hb with rfl | hb
    · exact plainWs_not h (.inr (.inr (by decide)))
    · exact (plainWs_decimal h _).2 b hb

/-- The tokens of an encoded instruction are its mnemonic and its operand tokens. -/
theorem tokens_encode {cfg : Config} (h : cfg.plainWs = true) (i : Instr) :
    tokens cfg.ws (encode i) = i.opcode.bytes :: i.operandTokens := by
  refine tokens_spaced (plainWs_space h) _ _ (plainWs_bytes h _) (by cases i <;> simp [Instr.opcode, Opcode.bytes])
    fun t ht => ?_
  cases i <;> simp only [Instr.operandTokens, List.mem_cons, List.not_mem_nil, or_false] at ht
  case jmp a => subst ht; exact plainWs_decimal h a
  all_goals
    rcases ht with rfl | rfl
    · exact plainWs_regToken h _
    · first
        | exact plainWs_regToken h _
        | exact plainWs_decimal h _
        | exact plainWs_literalToken h _

end Sys2Proof
end

