-- ==== Sys2Proof/Laws/State.lean ====
section
/-! SUPPORT. One lemma per field per update of the state, and the laws of the register file. -/

namespace Sys2Proof.Machine

/-! ## `State.setReg` -/

@[simp] theorem State.setReg_cfg (s : State) (i : Reg) (v : Int) : (s.setReg i v).cfg = s.cfg := rfl
@[simp] theorem State.setReg_x (s : State) (i : Reg) (v : Int) : (s.setReg i v).x = s.x.set i v := rfl
@[simp] theorem State.setReg_pc (s : State) (i : Reg) (v : Int) : (s.setReg i v).pc = s.pc := rfl
@[simp] theorem State.setReg_running (s : State) (i : Reg) (v : Int) : (s.setReg i v).running = s.running := rfl
@[simp] theorem State.setReg_fault (s : State) (i : Reg) (v : Int) : (s.setReg i v).fault = s.fault := rfl
@[simp] theorem State.setReg_mem (s : State) (i : Reg) (v : Int) : (s.setReg i v).mem = s.mem := rfl
@[simp] theorem State.setReg_cell (s : State) (i : Reg) (v : Int) (a : Nat) : (s.setReg i v).cell a = s.cell a := rfl

/-! ## `State.setCell` -/

@[simp] theorem State.setCell_cfg (s : State) (a : Nat) (c : Cell) : (s.setCell a c).cfg = s.cfg := rfl
@[simp] theorem State.setCell_x (s : State) (a : Nat) (c : Cell) : (s.setCell a c).x = s.x := rfl
@[simp] theorem State.setCell_pc (s : State) (a : Nat) (c : Cell) : (s.setCell a c).pc = s.pc := rfl
@[simp] theorem State.setCell_running (s : State) (a : Nat) (c : Cell) : (s.setCell a c).running = s.running := rfl
@[simp] theorem State.setCell_fault (s : State) (a : Nat) (c : Cell) : (s.setCell a c).fault = s.fault := rfl
@[simp] theorem State.setCell_mem (s : State) (a : Nat) (c : Cell) : (s.setCell a c).mem = Memory.write s.mem a c := rfl

/-! ## `State.setPc` -/

@[simp] theorem State.setPc_cfg (s : State) (a : Nat) : (s.setPc a).cfg = s.cfg := rfl
@[simp] theorem State.setPc_x (s : State) (a : Nat) : (s.setPc a).x = s.x := rfl
@[simp] theorem State.setPc_pc (s : State) (a : Nat) : (s.setPc a).pc = a := rfl
@[simp] theorem State.setPc_running (s : State) (a : Nat) : (s.setPc a).running = s.running := rfl
@[simp] theorem State.setPc_fault (s : State) (a : Nat) : (s.setPc a).fault = s.fault := rfl
@[simp] theorem State.setPc_mem (s : State) (a : Nat) : (s.setPc a).mem = s.mem := rfl
@[simp] theorem State.setPc_cell (s : State) (p : Nat) (a : Nat) : (s.setPc p).cell a = s.cell a := rfl

/-! ## `State.advance` -/

@[simp] theorem State.advance_cfg (s : State) : (s.advance).cfg = s.cfg := rfl
@[simp] theorem State.advance_x (s : State) : (s.advance).x = s.x := rfl
@[simp] theorem State.advance_pc (s : State) : (s.advance).pc = s.pc + 1 := rfl
@[simp] theorem State.advance_running (s : State) : (s.advance).running = s.running := rfl
@[simp] theorem State.advance_fault (s : State) : (s.advance).fault = s.fault := rfl
@[simp] theorem State.advance_mem (s : State) : (s.advance).mem = s.mem := rfl
@[simp] theorem State.advance_cell (s : State) (a : Nat) : (s.advance).cell a = s.cell a := rfl

/-! ## `State.halt` -/

@[simp] theorem State.halt_cfg (s : State) : (s.halt).cfg = s.cfg := rfl
@[simp] theorem State.halt_x (s : State) : (s.halt).x = s.x := rfl
@[simp] theorem State.halt_pc (s : State) : (s.halt).pc = s.pc := rfl
@[simp] theorem State.halt_running (s : State) : (s.halt).running = false := rfl
@[simp] theorem State.halt_fault (s : State) : (s.halt).fault = s.fault := rfl
@[simp] theorem State.halt_mem (s : State) : (s.halt).mem = s.mem := rfl
@[simp] theorem State.halt_cell (s : State) (a : Nat) : (s.halt).cell a = s.cell a := rfl

/-! ## `State.enterFault` -/

@[simp] theorem State.enterFault_cfg (s : State) (c : Cause) : (s.enterFault c).cfg = s.cfg := rfl
@[simp] theorem State.enterFault_x (s : State) (c : Cause) : (s.enterFault c).x = s.x := rfl
@[simp] theorem State.enterFault_pc (s : State) (c : Cause) : (s.enterFault c).pc = s.pc := rfl
@[simp] theorem State.enterFault_running (s : State) (c : Cause) : (s.enterFault c).running = false := rfl
@[simp] theorem State.enterFault_fault (s : State) (c : Cause) : (s.enterFault c).fault = some c := rfl
@[simp] theorem State.enterFault_mem (s : State) (c : Cause) : (s.enterFault c).mem = s.mem := rfl
@[simp] theorem State.enterFault_cell (s : State) (c : Cause) (a : Nat) : (s.enterFault c).cell a = s.cell a := rfl

/-! ## Registers -/

@[simp] theorem Regs.get_set_same (x : Regs) (i : Reg) (v : Int) : (x.set i v).get i = v := by
  match i with
  | 0 => rfl
  | 1 => rfl
  | 2 => rfl
  | 3 => rfl

theorem Regs.get_set_ne (x : Regs) {i j : Reg} (v : Int) (h : j ≠ i) : (x.set i v).get j = x.get j := by
  match i, j with
  | 0, 0 | 1, 1 | 2, 2 | 3, 3 => exact absurd rfl h
  | 0, 1 | 0, 2 | 0, 3 | 1, 0 | 1, 2 | 1, 3 | 2, 0 | 2, 1 | 2, 3 | 3, 0 | 3, 1 | 3, 2 => rfl

theorem Regs.get_set (x : Regs) (i j : Reg) (v : Int) :
    (x.set i v).get j = if j = i then v else x.get j := by
  by_cases h : j = i
  · subst h; simp
  · simp [h, Regs.get_set_ne]

/-- Two register files that read alike are equal. -/
theorem Regs.ext_get {x y : Regs} (h : ∀ r : Reg, x.get r = y.get r) : x = y := by
  have h0 := h 0
  have h1 := h 1
  have h2 := h 2
  have h3 := h 3
  cases x
  cases y
  simp_all [Regs.get]

/-- Writes to two different registers may be made in either order. -/
theorem Regs.set_comm (x : Regs) {i j : Reg} (v w : Int) (h : i ≠ j) :
    (x.set i v).set j w = (x.set j w).set i v := by
  refine Regs.ext_get fun r => ?_
  by_cases hj : r = j
  · subst hj; simp [Regs.get_set, Ne.symm h]
  · by_cases hi : r = i
    · subst hi; simp [Regs.get_set, h]
    · simp [Regs.get_set, hi, hj]

end Sys2Proof.Machine
end

