-- ==== Sys2Proof/Laws/Memory.lean ====
section
/-! SUPPORT. The laws of the memory operations: read after write, and what keeps the canonical form. -/

namespace Sys2Proof.Machine

/-- An address with no entry reads as an unlisted one. -/
theorem Memory.read_of_not_mem {m : Memory} {a : Nat} (h : ∀ p ∈ m, p.1 ≠ a) :
    Memory.read m a = Memory.unlisted := by
  induction m with
  | nil => rfl
  | cons p m ih =>
    have hp : ¬ p.1 = a := h p (by simp)
    simp only [Memory.read, hp, if_false]
    exact ih fun q hq => h q (by simp [hq])

/-- A cell that does not read as unlisted has an entry. -/
theorem Memory.mem_of_read {m : Memory} {a : Nat} {c : Cell} (h : Memory.read m a = c) (hc : c ≠ Memory.unlisted) :
    (a, c) ∈ m := by
  induction m with
  | nil => exact absurd h.symm hc
  | cons p m ih =>
    by_cases hp : p.1 = a
    · simp only [Memory.read, hp, if_true] at h
      subst hp h
      exact List.mem_cons_self ..
    · simp only [Memory.read, hp, if_false] at h
      exact List.mem_cons_of_mem _ (ih h)

theorem Memory.read_filter (m : Memory) {a b : Nat} (h : b ≠ a) :
    Memory.read (m.filter fun p => decide (p.1 ≠ a)) b = Memory.read m b := by
  induction m with
  | nil => rfl
  | cons p m ih =>
    by_cases hp : p.1 = a
    · have : ¬ p.1 = b := fun hb => h (hb.symm.trans hp)
      simp only [List.filter_cons, hp, ne_eq, not_true, decide_false, Bool.false_eq_true, if_false, Memory.read]
      rw [if_neg (fun hb => h hb.symm)]
      simpa using ih
    · simp only [List.filter_cons, ne_eq, hp, not_false_eq_true, decide_true, if_true, Memory.read]
      split
      · rfl
      · simpa using ih

theorem Memory.read_insert_same {m : Memory} {a : Nat} (c : Cell) (h : ∀ p ∈ m, p.1 ≠ a) :
    Memory.read (Memory.insert a c m) a = c := by
  induction m with
  | nil => simp [Memory.insert, Memory.read]
  | cons p m ih =>
    have hp : ¬ p.1 = a := h p (by simp)
    have ih := ih fun q hq => h q (by simp [hq])
    simp only [Memory.insert]
    split
    · simp [Memory.read]
    · simpa [Memory.read, hp] using ih

theorem Memory.read_insert_ne (m : Memory) {a b : Nat} (c : Cell) (h : b ≠ a) :
    Memory.read (Memory.insert a c m) b = Memory.read m b := by
  induction m with
  | nil => simp [Memory.insert, Memory.read, Ne.symm h]
  | cons p m ih =>
    simp only [Memory.insert]
    split
    · simp [Memory.read, Ne.symm h]
    · simp only [Memory.read, ih]

/-- A cell reads what was last written to it, whatever it held. -/
@[simp] theorem Memory.read_write_same (m : Memory) (a : Nat) (c : Cell) :
    Memory.read (Memory.write m a c) a = c := by
  have h : ∀ p ∈ m.filter fun p => decide (p.1 ≠ a), p.1 ≠ a := by simp
  simp only [Memory.write]
  split
  · next hc => rw [hc, Memory.read_of_not_mem h]
  · exact Memory.read_insert_same c h

/-- A write changes no other cell. -/
theorem Memory.read_write_ne (m : Memory) {a b : Nat} (c : Cell) (h : b ≠ a) :
    Memory.read (Memory.write m a c) b = Memory.read m b := by
  simp only [Memory.write]
  split
  · exact Memory.read_filter m h
  · rw [Memory.read_insert_ne _ c h]; exact Memory.read_filter m h

theorem Memory.read_write (m : Memory) (a b : Nat) (c : Cell) :
    Memory.read (Memory.write m a c) b = if b = a then c else Memory.read m b := by
  by_cases h : b = a
  · subst h; simp
  · simp [h, Memory.read_write_ne]

theorem Memory.mem_insert {m : Memory} {a : Nat} {c : Cell} {p : Nat × Cell}
    (h : p ∈ Memory.insert a c m) : p = (a, c) ∨ p ∈ m := by
  induction m with
  | nil => simpa [Memory.insert] using h
  | cons q m ih =>
    simp only [Memory.insert] at h
    split at h
    · simpa using h
    · rcases List.mem_cons.mp h with h | h
      · exact .inr (by simp [h])
      · rcases ih h with h | h
        · exact .inl h
        · exact .inr (by simp [h])

/-- An entry after a write is the one written, or was there before. -/
theorem Memory.mem_write {m : Memory} {a : Nat} {c : Cell} {p : Nat × Cell}
    (h : p ∈ Memory.write m a c) : p = (a, c) ∨ p ∈ m := by
  simp only [Memory.write] at h
  split at h
  · exact .inr (List.mem_filter.mp h).1
  · rcases Memory.mem_insert h with h | h
    · exact .inl h
    · exact .inr (List.mem_filter.mp h).1

theorem Memory.pairwise_insert {m : Memory} {a : Nat} (c : Cell)
    (hm : m.Pairwise (fun p q => p.1 < q.1)) (h : ∀ p ∈ m, p.1 ≠ a) :
    (Memory.insert a c m).Pairwise (fun p q => p.1 < q.1) := by
  induction m with
  | nil => simp [Memory.insert]
  | cons q m ih =>
    have hq := (List.pairwise_cons.mp hm).1
    have hm' := (List.pairwise_cons.mp hm).2
    simp only [Memory.insert]
    split
    · next hlt =>
      refine List.pairwise_cons.mpr ⟨fun p hp => ?_, hm⟩
      rcases List.mem_cons.mp hp with rfl | hp
      · exact hlt
      · exact Nat.lt_trans hlt (hq p hp)
    · next hlt =>
      refine List.pairwise_cons.mpr ⟨fun p hp => ?_, ih hm' fun p hp => h p (by simp [hp])⟩
      rcases Memory.mem_insert hp with rfl | hp
      · have : q.1 ≠ a := h q (by simp)
        simp only
        omega
      · exact hq p hp

/-- A write keeps the canonical form. -/
theorem Memory.wf_write {m : Memory} (h : Memory.wf m) (a : Nat) (c : Cell) : Memory.wf (Memory.write m a c) := by
  refine ⟨?_, fun p hp => ?_⟩
  · simp only [Memory.write]
    have hf := h.1.filter fun p => decide (p.1 ≠ a)
    split
    · exact hf
    · exact Memory.pairwise_insert c hf (by simp)
  · simp only [Memory.write] at hp
    split at hp
    · exact h.2 p (List.mem_filter.mp hp).1
    · next hc =>
      rcases Memory.mem_insert hp with rfl | hp
      · exact hc
      · exact h.2 p (List.mem_filter.mp hp).1

/-- In canonical form an entry is what its address reads as. -/
theorem Memory.read_of_mem {m : Memory} (h : Memory.wf m) {p : Nat × Cell} (hp : p ∈ m) :
    Memory.read m p.1 = p.2 := by
  have hw := h.1
  clear h
  induction m with
  | nil => cases hp
  | cons q m ih =>
    rcases List.mem_cons.mp hp with rfl | hp'
    · simp [Memory.read]
    · have : q.1 < p.1 := (List.pairwise_cons.mp hw).1 p hp'
      have hne : ¬ q.1 = p.1 := by omega
      simp only [Memory.read, hne, if_false]
      exact ih hp' (List.pairwise_cons.mp hw).2

/-- The memory of a newly created Core is in canonical form. -/
theorem Memory.wf_reset : Memory.wf State.reset.mem := by decide

@[simp] theorem State.cell_setCell_same (s : State) (a : Nat) (c : Cell) : (s.setCell a c).cell a = c :=
  Memory.read_write_same ..

theorem State.cell_setCell_ne (s : State) {a b : Nat} (c : Cell) (h : b ≠ a) : (s.setCell a c).cell b = s.cell b :=
  Memory.read_write_ne _ c h

theorem State.cell_setCell (s : State) (a b : Nat) (c : Cell) :
    (s.setCell a c).cell b = if b = a then c else s.cell b :=
  Memory.read_write ..

/-! ## The memory `load` makes -/

theorem Memory.mem_ofProgram {P : List Text} {a : Nat} {p : Nat × Cell} (h : p ∈ Memory.ofProgram a P) :
    a ≤ p.1 ∧ p.1 < a + P.length ∧ ∃ t ∈ P, p.2 = .instr t := by
  induction P generalizing a with
  | nil => cases h
  | cons t ts ih =>
    rcases List.mem_cons.mp h with rfl | h
    · simp
    · obtain ⟨h1, h2, u, hu, hp⟩ := ih h
      exact ⟨by omega, by simp only [List.length_cons]; omega, u, by simp [hu], hp⟩

/-- The program's texts lie in the cells from `a` on, and every other cell is zero. -/
theorem Memory.read_ofProgram (P : List Text) (a b : Nat) :
    Memory.read (Memory.ofProgram a P) b =
      if h : a ≤ b ∧ b < a + P.length then .instr (P[b - a]'(by omega)) else Memory.unlisted := by
  induction P generalizing a with
  | nil => simp [Memory.ofProgram, Memory.read]
  | cons t ts ih =>
    simp only [Memory.ofProgram, Memory.read, ih, List.length_cons]
    by_cases hab : a = b
    · subst hab; simp
    · rw [if_neg hab]
      by_cases h : a + 1 ≤ b ∧ b < a + 1 + ts.length
      · have h' : a ≤ b ∧ b < a + (ts.length + 1) := by omega
        have hk : b - a = (b - (a + 1)) + 1 := by omega
        simp only [h, h', and_self, dif_pos, hk, List.getElem_cons_succ]
      · have h' : ¬ (a ≤ b ∧ b < a + (ts.length + 1)) := by omega
        rw [dif_neg h, dif_neg h']

/-- The memory `load` makes is in canonical form. -/
theorem Memory.wf_ofProgram (P : List Text) (a : Nat) : Memory.wf (Memory.ofProgram a P) := by
  refine ⟨?_, fun p hp => ?_⟩
  · induction P generalizing a with
    | nil => exact List.Pairwise.nil
    | cons t ts ih =>
      refine List.pairwise_cons.mpr ⟨fun p hp => ?_, ih (a + 1)⟩
      have := (Memory.mem_ofProgram hp).1
      simp only
      omega
  · obtain ⟨_, _, t, _, ht⟩ := Memory.mem_ofProgram hp
    rw [ht]
    exact fun h => by cases h

end Sys2Proof.Machine
end

