-- ==== Sys2Proof/Laws/Ops.lean ====
section
/-! SUPPORT. What the shared operations can do: `wrap`, the operand checks, `resolve`, `exec`, `fetch`, `step`. -/

namespace Sys2Proof.Machine

/-! ## `sext` and `wrap` -/

theorem two_pow_pred {n : Nat} (h : 1 ≤ n) : ((2 ^ n : Nat) : Int) = 2 * ((2 ^ (n - 1) : Nat) : Int) := by
  obtain ⟨k, rfl⟩ : ∃ k, n = k + 1 := ⟨n - 1, by omega⟩
  rw [Nat.add_sub_cancel, Nat.pow_succ]
  push_cast
  ring

/-- `sext_N(v)` lies in the signed range of `N` bits. -/
theorem sext_range {n : Nat} (h : 1 ≤ n) (v : Int) :
    -((2 ^ (n - 1) : Nat) : Int) ≤ sext n v ∧ sext n v < ((2 ^ (n - 1) : Nat) : Int) := by
  have h2 := two_pow_pred h
  have hp : (0 : Int) < ((2 ^ (n - 1) : Nat) : Int) := by positivity
  have h0 := Int.emod_nonneg v (b := ((2 ^ n : Nat) : Int)) (by omega)
  have h1 := Int.emod_lt_of_pos v (b := ((2 ^ n : Nat) : Int)) (by omega)
  simp only [sext]
  split <;> omega

/-- `sext_N(v)` differs from `v` by a multiple of `2^N`. -/
theorem sext_dvd (n : Nat) (v : Int) : ((2 ^ n : Nat) : Int) ∣ sext n v - v := by
  have h := Int.emod_add_mul_ediv v ((2 ^ n : Nat) : Int)
  simp only [sext]
  split
  · exact ⟨-(v / ((2 ^ n : Nat) : Int)), by rw [Int.mul_neg]; omega⟩
  · exact ⟨-(v / ((2 ^ n : Nat) : Int)) - 1, by rw [Int.mul_sub, Int.mul_neg]; omega⟩

/-- Two integers of the signed range of `N` bits that are congruent modulo `2^N` are equal. -/
theorem eq_of_range_of_dvd {n : Nat} (h : 1 ≤ n) {u v : Int}
    (hu : -((2 ^ (n - 1) : Nat) : Int) ≤ u ∧ u < ((2 ^ (n - 1) : Nat) : Int))
    (hv : -((2 ^ (n - 1) : Nat) : Int) ≤ v ∧ v < ((2 ^ (n - 1) : Nat) : Int))
    (hd : ((2 ^ n : Nat) : Int) ∣ u - v) : u = v := by
  have h2 := two_pow_pred h
  have := Int.eq_zero_of_abs_lt_dvd hd (by rw [abs_lt]; omega)
  omega

theorem inValue_bits {cfg : Config} {n : Nat} (h : cfg.xlen = .bits n) (v : Int) :
    cfg.inValue v = true ↔ -((2 ^ (n - 1) : Nat) : Int) ≤ v ∧ v < ((2 ^ (n - 1) : Nat) : Int) := by
  simp [Config.inValue, h]

theorem inValue_inf {cfg : Config} (h : cfg.xlen = .inf) (v : Int) : cfg.inValue v = true := by
  simp [Config.inValue, h]

theorem wf_bits {cfg : Config} {n : Nat} (hw : cfg.wf = true) (h : cfg.xlen = .bits n) : 2 ≤ n := by
  simp only [Config.wf, h, Bool.and_eq_true, decide_eq_true_eq] at hw
  exact hw.2

theorem wf_cap {cfg : Config} (hw : cfg.wf = true) : 1 ≤ cfg.cap := by
  simp only [Config.wf, Bool.and_eq_true, decide_eq_true_eq] at hw
  exact hw.1

theorem wrap_bits {cfg : Config} {n : Nat} (h : cfg.xlen = .bits n) (v : Int) : wrap cfg v = sext n v := by
  simp [wrap, h]

theorem wrap_inf {cfg : Config} (h : cfg.xlen = .inf) (v : Int) : wrap cfg v = v := by
  simp [wrap, h]

/-- `wrap` answers a `Value`. -/
theorem wrap_inValue {cfg : Config} (hw : cfg.wf = true) (v : Int) : cfg.inValue (wrap cfg v) = true := by
  cases hx : cfg.xlen with
  | inf => exact inValue_inf hx _
  | bits n =>
    rw [wrap_bits hx, inValue_bits hx]
    exact sext_range (by have := wf_bits hw hx; omega) v

/-- `wrap` leaves a `Value` as it is. -/
theorem wrap_of_inValue {cfg : Config} (hw : cfg.wf = true) {v : Int} (hv : cfg.inValue v = true) :
    wrap cfg v = v := by
  cases hx : cfg.xlen with
  | inf => exact wrap_inf hx v
  | bits n =>
    have hn : 1 ≤ n := by have := wf_bits hw hx; omega
    rw [wrap_bits hx]
    exact eq_of_range_of_dvd hn (sext_range hn v) ((inValue_bits hx v).mp hv) (sext_dvd n v)

/-- Zero is a `Value` of every width. -/
theorem inValue_zero (cfg : Config) : cfg.inValue 0 = true := by
  cases hx : cfg.xlen with
  | inf => exact inValue_inf hx 0
  | bits n =>
    rw [inValue_bits hx]
    have hp : (0 : Int) < ((2 ^ (n - 1) : Nat) : Int) := by positivity
    omega

/-! ## Operand checks -/

@[simp] theorem inMemory_iff (cfg : Config) (a : Nat) : cfg.inMemory a = true ↔ a < cfg.cap := by
  simp [Config.inMemory]

theorem immValue_ok {cfg : Config} {v : Int} (h : cfg.inValue v = true) : immValue cfg v = .ok v := by
  simp [immValue, h]

theorem immValue_error {cfg : Config} {v : Int} (h : cfg.inValue v = false) :
    immValue cfg v = .error .invalidOperand := by
  simp [immValue, h]

theorem cellIndex_ok {cfg : Config} {a : Nat} (h : cfg.inMemory a = true) : cellIndex cfg a = .ok a := by
  simp only [cellIndex, h, if_true]

theorem cellIndex_error {cfg : Config} {a : Nat} (h : cfg.inMemory a = false) :
    cellIndex cfg a = .error .invalidOperand := by
  simp only [cellIndex, h, Bool.false_eq_true, if_false]

/-! ## `resolve` and `exec` -/

/-- Every meaning is `resolve`, then `apply` or fault entry. -/
theorem exec_eq_finish (i : Instr) (s : State) : exec i s = finish (resolve s.cfg s.x s.mem i) s := by
  cases i <;> rfl

/-- What `resolve` can answer for an instruction whose operands are in range. -/
theorem resolve_of_wellFormed {cfg : Config} {i : Instr} (x : Regs) (m : Memory) :
    i.wellFormed cfg = true → resolve cfg x m i =
      match i with
      | .mov d imm => .ok (.setReg d imm)
      | .add d r => .ok (.setReg d (wrap cfg (x.get d + x.get r)))
      | .sub d r => .ok (.setReg d (wrap cfg (x.get d - x.get r)))
      | .load d a => (memRead m a).map (.setReg d)
      | .store r a => .ok (.setMem a (x.get r))
      | .jmp a => .ok (.setPC a)
      | .jz r a => .ok (if x.get r = 0 then .setPC a else .noChange)
      | .jnz r a => .ok (if x.get r = 0 then .noChange else .setPC a)
      | .hlt => .ok .halt := by
  intro h
  cases i with
  | mov d imm => simp only [Instr.wellFormed] at h; simp [resolve, resolveMov, immValue_ok h, Except.map]
  | add d r => rfl
  | sub d r => rfl
  | load d a => simp only [Instr.wellFormed] at h; simp [resolve, resolveLoad, cellIndex_ok h, Except.bind]
  | store r a => simp only [Instr.wellFormed] at h; simp [resolve, resolveStore, cellIndex_ok h, Except.map]
  | jmp a => simp only [Instr.wellFormed] at h; simp [resolve, resolveJmp, jumpWhen, cellIndex_ok h, Except.map]
  | jz r a => simp only [Instr.wellFormed] at h; simp [resolve, resolveJz, jumpWhen, cellIndex_ok h, Except.map, isZero]
  | jnz r a =>
    simp only [Instr.wellFormed] at h
    by_cases hz : x.get r = 0 <;> simp [resolve, resolveJnz, jumpWhen, cellIndex_ok h, Except.map, isNonzero, hz]
  | hlt => rfl

/-- An operand out of range raises `InvalidOperand` (R32), in `resolve` too. -/
theorem resolve_of_not_wellFormed {cfg : Config} {i : Instr} (x : Regs) (m : Memory)
    (h : i.wellFormed cfg = false) : resolve cfg x m i = .error .invalidOperand := by
  cases i with
  | mov d imm => simp only [Instr.wellFormed] at h; simp [resolve, resolveMov, immValue_error h, Except.map]
  | add d r => cases h
  | sub d r => cases h
  | load d a => simp only [Instr.wellFormed] at h; simp [resolve, resolveLoad, cellIndex_error h, Except.bind]
  | store r a => simp only [Instr.wellFormed] at h; simp [resolve, resolveStore, cellIndex_error h, Except.map]
  | jmp a => simp only [Instr.wellFormed] at h; simp [resolve, resolveJmp, jumpWhen, cellIndex_error h, Except.map]
  | jz r a => simp only [Instr.wellFormed] at h; simp [resolve, resolveJz, jumpWhen, cellIndex_error h, Except.map]
  | jnz r a => simp only [Instr.wellFormed] at h; simp [resolve, resolveJnz, jumpWhen, cellIndex_error h, Except.map]
  | hlt => cases h

theorem memRead_int {m : Memory} {a : Nat} {v : Int} (h : Memory.read m a = .int v) : memRead m a = .ok v := by
  simp [memRead, h]

theorem memRead_instr {m : Memory} {a : Nat} {t : Text} (h : Memory.read m a = .instr t) :
    memRead m a = .error .invalidOperand := by
  simp [memRead, h]

/-- `resolve` raises nothing but `InvalidOperand`, and only for an operand out of range or LOAD of an instruction
cell (R102). -/
theorem resolve_error_cases {cfg : Config} {x : Regs} {m : Memory} {i : Instr} {c : Cause}
    (h : resolve cfg x m i = .error c) :
    c = .invalidOperand ∧
      (i.wellFormed cfg = false ∨ ∃ d a t, i = .load d a ∧ a < cfg.cap ∧ Memory.read m a = .instr t) := by
  cases hw : i.wellFormed cfg with
  | false =>
    rw [resolve_of_not_wellFormed x m hw] at h
    cases h
    exact ⟨rfl, .inl rfl⟩
  | true =>
    rw [resolve_of_wellFormed x m hw] at h
    cases i with
    | load d a =>
      have ha : a < cfg.cap := by simpa [Instr.wellFormed] using hw
      simp only at h
      cases hr : Memory.read m a with
      | int v => rw [memRead_int hr] at h; cases h
      | instr t =>
        rw [memRead_instr hr] at h
        cases h
        exact ⟨rfl, .inr ⟨d, a, t, rfl, ha, hr⟩⟩
    | _ => cases h

/-- What a mutation that `resolve` yields says of the instruction and its operands. -/
theorem resolve_ok_cases {cfg : Config} {x : Regs} {m : Memory} {i : Instr} {mu : Mutation}
    (h : resolve cfg x m i = .ok mu) :
    (∃ d v, mu = .setReg d v ∧
      ((i = .mov d v ∧ cfg.inValue v = true) ∨
        (∃ r, i = .add d r ∧ v = wrap cfg (x.get d + x.get r)) ∨
        (∃ r, i = .sub d r ∧ v = wrap cfg (x.get d - x.get r)) ∨
        (∃ a, i = .load d a ∧ a < cfg.cap ∧ Memory.read m a = .int v))) ∨
    (∃ r a, i = .store r a ∧ a < cfg.cap ∧ mu = .setMem a (x.get r)) ∨
    (∃ a, jumpTarget i = some a ∧ a < cfg.cap ∧ (mu = .setPC a ∨ mu = .noChange)) ∨
    (i = .hlt ∧ mu = .halt) := by
  have hw : i.wellFormed cfg = true := by
    cases hw : i.wellFormed cfg with
    | true => rfl
    | false => rw [resolve_of_not_wellFormed x m hw] at h; cases h
  rw [resolve_of_wellFormed x m hw] at h
  cases i with
  | mov d v => cases h; exact .inl ⟨d, v, rfl, .inl ⟨rfl, hw⟩⟩
  | add d r => cases h; exact .inl ⟨d, _, rfl, .inr (.inl ⟨r, rfl, rfl⟩)⟩
  | sub d r => cases h; exact .inl ⟨d, _, rfl, .inr (.inr (.inl ⟨r, rfl, rfl⟩))⟩
  | load d a =>
    simp only at h
    cases hr : Memory.read m a with
    | instr t => rw [memRead_instr hr] at h; cases h
    | int v =>
      rw [memRead_int hr] at h
      cases h
      exact .inl ⟨d, v, rfl, .inr (.inr (.inr ⟨a, rfl, (inMemory_iff cfg a).mp hw, hr⟩))⟩
  | store r a => cases h; exact .inr (.inl ⟨r, a, rfl, (inMemory_iff cfg a).mp hw, rfl⟩)
  | jmp a => cases h; exact .inr (.inr (.inl ⟨a, rfl, (inMemory_iff cfg a).mp hw, .inl rfl⟩))
  | jz r a =>
    refine .inr (.inr (.inl ⟨a, rfl, (inMemory_iff cfg a).mp hw, ?_⟩))
    by_cases hz : x.get r = 0 <;> simp only [hz, if_true, if_false, Except.ok.injEq] at h
    · exact .inl h.symm
    · exact .inr h.symm
  | jnz r a =>
    refine .inr (.inr (.inl ⟨a, rfl, (inMemory_iff cfg a).mp hw, ?_⟩))
    by_cases hz : x.get r = 0 <;> simp only [hz, if_true, if_false, Except.ok.injEq] at h
    · exact .inr h.symm
    · exact .inl h.symm
  | hlt => cases h; exact .inr (.inr (.inr ⟨rfl, rfl⟩))

/-- Everything a meaning can have done: fault entry with `InvalidOperand`, or the mutation applied. -/
theorem exec_cases {i : Instr} {s t : State} (h : exec i s = .next t) :
    t = s.enterFault .invalidOperand ∨
      ∃ mu, resolve s.cfg s.x s.mem i = .ok mu ∧ t = applyMutation s mu := by
  rw [exec_eq_finish] at h
  cases hr : resolve s.cfg s.x s.mem i with
  | error c =>
    obtain ⟨rfl, -⟩ := resolve_error_cases hr
    rw [hr] at h
    cases h
    exact .inl rfl
  | ok mu =>
    rw [hr] at h
    cases h
    exact .inr ⟨mu, rfl, rfl⟩

/-- Every instruction answers a next state, at every state (R70: the step is total). -/
theorem exec_next (i : Instr) (s : State) : ∃ t, exec i s = .next t := by
  rw [exec_eq_finish]
  cases resolve s.cfg s.x s.mem i with
  | ok m => exact ⟨_, rfl⟩
  | error c => exact ⟨_, rfl⟩

/-! ## `fetch`, `decodeExecute`, `step` -/

theorem fetch_end {s : State} (h : s.cfg.cap ≤ s.pc) : fetch s = .error .endOfMemory := by
  simp [fetch, h]

theorem fetch_cell {s : State} (h : s.pc < s.cfg.cap) : fetch s = .ok (s.cell s.pc, s.advance) := by
  simp only [fetch]
  rw [if_neg (by omega)]

theorem step_idle {s : State} (h : s.running = false) : step s = .fault .idle := by
  simp [step, cycle, h]

theorem step_end {s : State} (hr : s.running = true) (h : s.cfg.cap ≤ s.pc) :
    step s = .next (s.enterFault .endOfMemory) := by
  simp [step, cycle, hr, fetch_end h]

/-- A running Core below the end of memory executes the cell at `pc` on the advanced state. -/
theorem step_cell {s : State} (hr : s.running = true) (h : s.pc < s.cfg.cap) :
    step s = decodeExecute (s.cell s.pc) s.advance := by
  simp [step, cycle, hr, fetch_cell h]

theorem decodeExecute_int (v : Int) (s : State) :
    decodeExecute (.int v) s = .next (s.enterFault .invalidOpcode) := rfl

theorem decodeExecute_error {t : Text} {s : State} {e : DecodeError} (h : parse s.cfg t = .error e) :
    decodeExecute (.instr t) s = .next (s.enterFault (causeOf e)) := by
  simp [decodeExecute, h]

theorem decodeExecute_ok {t : Text} {s : State} {i : Instr} (h : parse s.cfg t = .ok i) :
    decodeExecute (.instr t) s = exec i s := by
  simp [decodeExecute, h]

/-- Everything a step that answers a next state can have done. -/
inductive StepCase (s t : State) : Prop where
  /-- `fetch` found no cell. -/
  | endOfMemory (hpc : s.cfg.cap ≤ s.pc) (ht : t = s.enterFault .endOfMemory)
  /-- The cell holds an integer. -/
  | integer (hpc : s.pc < s.cfg.cap) (v : Int) (hc : s.cell s.pc = .int v)
      (ht : t = s.advance.enterFault .invalidOpcode)
  /-- The cell holds an illegal text. -/
  | illegal (hpc : s.pc < s.cfg.cap) (txt : Text) (e : DecodeError) (hc : s.cell s.pc = .instr txt)
      (hp : parse s.cfg txt = .error e) (ht : t = s.advance.enterFault (causeOf e))
  /-- The instruction's own check raised `InvalidOperand`. -/
  | raised (hpc : s.pc < s.cfg.cap) (txt : Text) (i : Instr) (hc : s.cell s.pc = .instr txt)
      (hp : parse s.cfg txt = .ok i) (hr : resolve s.cfg s.x s.mem i = .error .invalidOperand)
      (ht : t = s.advance.enterFault .invalidOperand)
  /-- The instruction completed. -/
  | completed (hpc : s.pc < s.cfg.cap) (txt : Text) (i : Instr) (m : Mutation) (hc : s.cell s.pc = .instr txt)
      (hp : parse s.cfg txt = .ok i) (hr : resolve s.cfg s.x s.mem i = .ok m)
      (ht : t = applyMutation s.advance m)

/-- The inversion of `step`: it ran because the Core was running, and did one of five things. -/
theorem step_cases {s t : State} (h : step s = .next t) : s.running = true ∧ StepCase s t := by
  cases hr : s.running with
  | false => rw [step_idle hr] at h; cases h
  | true =>
    refine ⟨rfl, ?_⟩
    by_cases hpc : s.cfg.cap ≤ s.pc
    · rw [step_end hr hpc] at h
      cases h
      exact .endOfMemory hpc rfl
    · have hpc : s.pc < s.cfg.cap := by omega
      rw [step_cell hr hpc] at h
      cases hc : s.cell s.pc with
      | int v =>
        rw [hc, decodeExecute_int] at h
        cases h
        exact .integer hpc v hc rfl
      | instr txt =>
        rw [hc] at h
        cases hp : parse s.cfg txt with
        | error e =>
          rw [decodeExecute_error (by simpa using hp)] at h
          cases h
          exact .illegal hpc txt e hc hp rfl
        | ok i =>
          rw [decodeExecute_ok (by simpa using hp), exec_eq_finish] at h
          simp only [State.advance_cfg, State.advance_x, State.advance_mem] at h
          cases hres : resolve s.cfg s.x s.mem i with
          | error c =>
            obtain ⟨rfl, -⟩ := resolve_error_cases hres
            rw [hres] at h
            cases h
            exact .raised hpc txt i hc hp hres rfl
          | ok m =>
            rw [hres] at h
            cases h
            exact .completed hpc txt i m hc hp hres rfl

/-- A running Core has a next state (R70). -/
theorem step_running {s : State} (h : s.running = true) : ∃ t, step s = .next t := by
  by_cases hpc : s.cfg.cap ≤ s.pc
  · exact ⟨_, step_end h hpc⟩
  · rw [step_cell h (by omega)]
    cases s.cell s.pc with
    | int v => exact ⟨_, rfl⟩
    | instr txt =>
      cases hp : parse s.advance.cfg txt with
      | error e => exact ⟨_, decodeExecute_error hp⟩
      | ok i => rw [decodeExecute_ok hp]; exact exec_next i _

/-! ## What a mutation leaves alone -/

@[simp] theorem applyMutation_cfg (s : State) (m : Mutation) : (applyMutation s m).cfg = s.cfg := by cases m <;> rfl

/-- Only `Halt` writes `running`, and it writes false. -/
theorem applyMutation_running (s : State) (m : Mutation) :
    (applyMutation s m).running = (if m = .halt then false else s.running) := by
  cases m <;> rfl

@[simp] theorem applyMutation_fault (s : State) (m : Mutation) : (applyMutation s m).fault = s.fault := by
  cases m <;> rfl

end Sys2Proof.Machine
end

