-- ==== Sys2Proof/Laws/Parse.lean ====
section
/-! SUPPORT. What `parse` does: the fault of every bad operand, the operands of each format, and the step that fetches a text. -/

namespace Sys2Proof.Machine

/-! ## Bad operands raise `InvalidOperand` -/

theorem regOperand_error {t : Text} {e : DecodeError} (h : regOperand t = .error e) :
    causeOf e = .invalidOperand := by
  match t with
  | [] | [_] | _ :: _ :: _ :: _ => cases h; rfl
  | [r, b] =>
    simp only [regOperand] at h
    split at h
    · split at h
      · split at h <;> cases h; rfl
      · cases h; rfl
    · cases h; rfl

theorem immOperand_error {cfg : Config} {t : Text} {e : DecodeError} (h : immOperand cfg t = .error e) :
    causeOf e = .invalidOperand := by
  simp only [immOperand] at h
  split at h
  · cases h; rfl
  · split at h <;> cases h; rfl

theorem addrOperand_error {cfg : Config} {t : Text} {e : DecodeError} (h : addrOperand cfg t = .error e) :
    causeOf e = .invalidOperand := by
  simp only [addrOperand] at h
  split at h
  · cases h; rfl
  · split at h <;> cases h; rfl

/-! ## The operands of each format

The answer of each: the wrong number of tokens, the first bad operand, or the instruction. -/

/-- What R58 steps 4 to 6 answer for a format's operand tokens. -/
inductive OperandsCase (cfg : Config) (kinds : List OperandKind) (ops : List Text) (ok : Instr → Prop)
    (r : Except DecodeError Instr) : Prop where
  | count (hk : ops.length ≠ kinds.length) (hr : r = .error .wrongTokenCount)
  | bad (hk : ops.length = kinds.length) (e : DecodeError) (hv : ∃ p ∈ kinds.zip ops, validOperand cfg p.1 p.2 = false)
      (he : causeOf e = .invalidOperand) (hr : r = .error e)
  | good (hk : ops.length = kinds.length) (i : Instr) (hv : ∀ p ∈ kinds.zip ops, validOperand cfg p.1 p.2 = true)
      (hi : ok i) (hr : r = .ok i)

theorem operandsZ_cases (cfg : Config) (i : Instr) (ops : List Text) :
    OperandsCase cfg Format.z.operands ops (fun j => j = i) (operandsZ i ops) := by
  match ops with
  | [] => exact .good rfl i (by simp [Format.operands]) rfl rfl
  | _ :: _ => exact .count (by simp [Format.operands]) rfl

theorem operandsA_cases (cfg : Config) (mk : Nat → Instr) (ops : List Text) :
    OperandsCase cfg Format.a.operands ops (fun j => ∃ a, a < cfg.cap ∧ j = mk a) (operandsA cfg mk ops) := by
  match ops with
  | [] => exact .count (by simp [Format.operands]) rfl
  | _ :: _ :: _ => exact .count (by simp [Format.operands]) rfl
  | [t1] =>
    cases h1 : addrOperand cfg t1 with
    | error e =>
      exact .bad rfl e ⟨(.address, t1), by simp [Format.operands], by simp [validOperand, h1, Except.isOk, Except.toBool]⟩
        (addrOperand_error h1) (by simp [operandsA, h1, Except.map])
    | ok a =>
      exact .good rfl (mk a) (by simp [Format.operands, validOperand, h1, Except.isOk, Except.toBool])
        ⟨a, by simpa using (addrOperand_ok h1).2, rfl⟩ (by simp [operandsA, h1, Except.map])

theorem operandsRI_cases (cfg : Config) (mk : Reg → Int → Instr) (ops : List Text) :
    OperandsCase cfg Format.ri.operands ops (fun j => ∃ r v, cfg.inValue v = true ∧ j = mk r v)
      (operandsRI cfg mk ops) := by
  match ops with
  | [] => exact .count (by simp [Format.operands]) rfl
  | [_] => exact .count (by simp [Format.operands]) rfl
  | _ :: _ :: _ :: _ => exact .count (by simp [Format.operands]) rfl
  | [t1, t2] =>
    cases h1 : regOperand t1 with
    | error e =>
      exact .bad rfl e ⟨(.register, t1), by simp [Format.operands], by simp [validOperand, h1, Except.isOk, Except.toBool]⟩
        (regOperand_error h1) (by simp [operandsRI, h1, Except.bind])
    | ok r =>
      cases h2 : immOperand cfg t2 with
      | error e =>
        exact .bad rfl e ⟨(.immediate, t2), by simp [Format.operands], by simp [validOperand, h2, Except.isOk, Except.toBool]⟩
          (immOperand_error h2) (by simp [operandsRI, h1, h2, Except.bind, Except.map])
      | ok v =>
        exact .good rfl (mk r v) (by simp [Format.operands, validOperand, h1, h2, Except.isOk, Except.toBool])
          ⟨r, v, (immOperand_ok h2).2, rfl⟩ (by simp [operandsRI, h1, h2, Except.bind, Except.map])

theorem operandsRR_cases (cfg : Config) (mk : Reg → Reg → Instr) (ops : List Text) :
    OperandsCase cfg Format.rr.operands ops (fun j => ∃ r q, j = mk r q) (operandsRR mk ops) := by
  match ops with
  | [] => exact .count (by simp [Format.operands]) rfl
  | [_] => exact .count (by simp [Format.operands]) rfl
  | _ :: _ :: _ :: _ => exact .count (by simp [Format.operands]) rfl
  | [t1, t2] =>
    cases h1 : regOperand t1 with
    | error e =>
      exact .bad rfl e ⟨(.register, t1), by simp [Format.operands], by simp [validOperand, h1, Except.isOk, Except.toBool]⟩
        (regOperand_error h1) (by simp [operandsRR, h1, Except.bind])
    | ok r =>
      cases h2 : regOperand t2 with
      | error e =>
        exact .bad rfl e ⟨(.register, t2), by simp [Format.operands], by simp [validOperand, h2, Except.isOk, Except.toBool]⟩
          (regOperand_error h2) (by simp [operandsRR, h1, h2, Except.bind, Except.map])
      | ok q =>
        exact .good rfl (mk r q) (by simp [Format.operands, validOperand, h1, h2, Except.isOk, Except.toBool])
          ⟨r, q, rfl⟩ (by simp [operandsRR, h1, h2, Except.bind, Except.map])

theorem operandsRA_cases (cfg : Config) (mk : Reg → Nat → Instr) (ops : List Text) :
    OperandsCase cfg Format.ra.operands ops (fun j => ∃ r a, a < cfg.cap ∧ j = mk r a) (operandsRA cfg mk ops) := by
  match ops with
  | [] => exact .count (by simp [Format.operands]) rfl
  | [_] => exact .count (by simp [Format.operands]) rfl
  | _ :: _ :: _ :: _ => exact .count (by simp [Format.operands]) rfl
  | [t1, t2] =>
    cases h1 : regOperand t1 with
    | error e =>
      exact .bad rfl e ⟨(.register, t1), by simp [Format.operands], by simp [validOperand, h1, Except.isOk, Except.toBool]⟩
        (regOperand_error h1) (by simp [operandsRA, h1, Except.bind])
    | ok r =>
      cases h2 : addrOperand cfg t2 with
      | error e =>
        exact .bad rfl e ⟨(.address, t2), by simp [Format.operands], by simp [validOperand, h2, Except.isOk, Except.toBool]⟩
          (addrOperand_error h2) (by simp [operandsRA, h1, h2, Except.bind, Except.map])
      | ok a =>
        exact .good rfl (mk r a) (by simp [Format.operands, validOperand, h1, h2, Except.isOk, Except.toBool])
          ⟨r, a, by simpa using (addrOperand_ok h2).2, rfl⟩ (by simp [operandsRA, h1, h2, Except.bind, Except.map])

/-- A case stays a case when more is said of fewer instructions. -/
theorem OperandsCase.mono {cfg : Config} {kinds : List OperandKind} {ops : List Text} {p q : Instr → Prop}
    {r : Except DecodeError Instr} (h : OperandsCase cfg kinds ops p r) (hpq : ∀ i, p i → q i) :
    OperandsCase cfg kinds ops q r := by
  cases h with
  | count hk hr => exact .count hk hr
  | bad hk e hv he hr => exact .bad hk e hv he hr
  | good hk i hv hi hr => exact .good hk i hv (hpq i hi) hr

/-- What `parseOperands` answers, for every mnemonic. -/
theorem parseOperands_cases (cfg : Config) (o : Opcode) (ops : List Text) :
    OperandsCase cfg o.format.operands ops (fun i => i.opcode = o ∧ i.wellFormed cfg = true)
      (parseOperands cfg o ops) := by
  have mem : ∀ {a : Nat}, a < cfg.cap → cfg.inMemory a = true := fun h => (inMemory_iff cfg _).mpr h
  cases o with
  | mov => exact (operandsRI_cases cfg .mov ops).mono fun i ⟨_, _, hv, h⟩ => h ▸ ⟨rfl, hv⟩
  | add => exact (operandsRR_cases cfg .add ops).mono fun i ⟨_, _, h⟩ => h ▸ ⟨rfl, rfl⟩
  | sub => exact (operandsRR_cases cfg .sub ops).mono fun i ⟨_, _, h⟩ => h ▸ ⟨rfl, rfl⟩
  | load => exact (operandsRA_cases cfg .load ops).mono fun i ⟨_, _, ha, h⟩ => h ▸ ⟨rfl, mem ha⟩
  | store => exact (operandsRA_cases cfg .store ops).mono fun i ⟨_, _, ha, h⟩ => h ▸ ⟨rfl, mem ha⟩
  | jmp => exact (operandsA_cases cfg .jmp ops).mono fun i ⟨_, ha, h⟩ => h ▸ ⟨rfl, mem ha⟩
  | jz => exact (operandsRA_cases cfg .jz ops).mono fun i ⟨_, _, ha, h⟩ => h ▸ ⟨rfl, mem ha⟩
  | jnz => exact (operandsRA_cases cfg .jnz ops).mono fun i ⟨_, _, ha, h⟩ => h ▸ ⟨rfl, mem ha⟩
  | hlt => exact (operandsZ_cases cfg .hlt ops).mono fun i h => h ▸ ⟨rfl, rfl⟩

/-! ## `parse` and the step that fetches a text -/

theorem opcodeOf_eq_none {t0 : Text} (h : ∀ o : Opcode, t0 ≠ o.bytes) : opcodeOf t0 = none := by
  cases ho : opcodeOf t0 with
  | none => rfl
  | some o => exact absurd (opcodeOf_some ho) (h o)

/-- A text whose first token is a mnemonic parses by its operand tokens. -/
theorem parse_of_tokens {cfg : Config} {t : Text} {o : Opcode} {ops : List Text}
    (h : tokens cfg.ws t = o.bytes :: ops) : parse cfg t = parseOperands cfg o ops := by
  simp [parse, h, opcodeOf_bytes]

/-- What parses has a mnemonic as its first token. -/
theorem parse_ok_tokens {cfg : Config} {t : Text} {i : Instr} (h : parse cfg t = .ok i) :
    ∃ o ops, tokens cfg.ws t = o.bytes :: ops ∧ parseOperands cfg o ops = .ok i := by
  simp only [parse] at h
  split at h
  · cases h
  · next t0 ops ht =>
    split at h
    · cases h
    · next o ho =>
      exact ⟨o, ops, by rw [ht, opcodeOf_some ho], h⟩

theorem step_fetches {s : State} {t : Text} (h : s.fetches t) : step s = decodeExecute (.instr t) s.advance := by
  rw [step_cell h.1 h.2.1, h.2.2]

/-- The step that fetches a text with a mnemonic: its operands decide (R58 steps 4 to 6). -/
theorem step_of_tokens {s : State} {t : Text} {o : Opcode} {ops : List Text} (hf : s.fetches t)
    (h : tokens s.cfg.ws t = o.bytes :: ops) :
    step s =
      match parseOperands s.cfg o ops with
      | .ok i => exec i s.advance
      | .error e => .next (s.advance.enterFault (causeOf e)) := by
  rw [step_fetches hf]
  simp only [decodeExecute, State.advance_cfg, parse_of_tokens h]
  cases parseOperands s.cfg o ops <;> rfl

end Sys2Proof.Machine
end

