-- ==== Sys2Proof/Laws/HostOps.lean ====
section
/-! SUPPORT. What `load`, `run` and the operations of a pool can do, and induction over a run. -/

namespace Sys2Proof.Machine

/-- Everything a `load` that loads says: the Core was idle, the program fits, and the state it made. -/
theorem load_loaded {P : List Text} {s t : State} (h : load P s = .loaded t) :
    s.running = false ∧ P.length ≤ s.cfg.cap ∧ (∀ p ∈ P, s.cfg.fits p = true) ∧
      t = { cfg := s.cfg, x := { r0 := 0, r1 := 0, r2 := 0, r3 := 0 }, pc := 0, running := true, fault := none,
            mem := Memory.ofProgram 0 P } := by
  simp only [load] at h
  split at h
  · cases h
  · next hr =>
    split at h
    · cases h
    · next hc =>
      split at h
      · next hf =>
        cases h
        exact ⟨by simpa using hr, by omega, by simpa using hf, rfl⟩
      · cases h

/-- One step of a run: the Core was idle and the run is over, or it took a step and the rest of the fuel is left. -/
theorem run_succ_some {n : Nat} {s t : State} (h : run (n + 1) s = some t) :
    (s.running = false ∧ t = s) ∨ ∃ u, s.running = true ∧ step s = .next u ∧ run n u = some t := by
  simp only [run] at h
  split at h
  · next hr =>
    split at h
    · next u hu => exact .inr ⟨u, hr, hu, h⟩
    · cases h
    · cases h
  · next hr => cases h; exact .inl ⟨by simpa using hr, rfl⟩

/-- What every step keeps, whole steps keep. -/
theorem steps_induction {Q : State → Prop} (hstep : ∀ s t, Q s → step s = .next t → Q t) {n : Nat} {s t : State}
    (hs : Q s) (h : steps n s = some t) : Q t := by
  induction n generalizing s with
  | zero => cases h; exact hs
  | succ n ih =>
    simp only [steps] at h
    split at h
    · next u hu => exact ih (hstep s u hs hu) h
    · cases h
    · cases h

/-- A run of a running Core that ends has a last step: from a running state that the run reached, to its end. -/
theorem run_last_step {n : Nat} {s t : State} (hr : s.running = true) (h : run n s = some t) :
    ∃ m u, m < n ∧ steps m s = some u ∧ u.running = true ∧ step u = .next t := by
  induction n generalizing s with
  | zero => simp [run, hr] at h
  | succ n ih =>
    rcases run_succ_some h with ⟨hs, _⟩ | ⟨u, _, hu, h⟩
    · rw [hr] at hs; cases hs
    · cases hur : u.running with
      | true =>
        obtain ⟨m, v, hm, hv, hvr, ht⟩ := ih hur h
        exact ⟨m + 1, v, by omega, by simp only [steps, hu, hv], hvr, ht⟩
      | false =>
        have : t = u := by cases n <;> simpa [run, hur, eq_comm] using h
        exact ⟨0, s, by omega, rfl, hr, this ▸ hu⟩

/-- What every step keeps, a run keeps. -/
theorem run_induction {Q : State → Prop} (hstep : ∀ s t, Q s → step s = .next t → Q t) {n : Nat} {s t : State}
    (hs : Q s) (h : run n s = some t) : Q t := by
  induction n generalizing s with
  | zero =>
    simp only [run] at h
    split at h
    · cases h
    · cases h; exact hs
  | succ n ih =>
    rcases run_succ_some h with ⟨_, rfl⟩ | ⟨u, _, hu, h⟩
    · exact hs
    · exact ih (hstep s u hs hu) h

/-- Everything a pool's step says when it answers a pool: Core `k` is there, it took a step, and nothing else changed. -/
theorem Pool.stepAt_next {p q : Pool} {k : Nat} (h : p.stepAt k = .next q) :
    ∃ s t, p[k]? = some s ∧ step s = .next t ∧ q = p.set k t := by
  simp only [Pool.stepAt] at h
  split at h
  · cases h
  · next s hs =>
    split at h
    · next t ht => cases h; exact ⟨s, t, hs, ht, rfl⟩
    · cases h
    · cases h

/-- Everything a load into a pool says when it loads. -/
theorem Pool.loadAt_loaded {p q : Pool} {k : Nat} {P : List Text} (h : p.loadAt k P = .loaded q) :
    ∃ s t, p[k]? = some s ∧ load P s = .loaded t ∧ q = p.set k t := by
  simp only [Pool.loadAt] at h
  split at h
  · cases h
  · next s hs =>
    split at h
    · next t ht => cases h; exact ⟨s, t, hs, ht, rfl⟩
    · cases h
    · cases h

/-- Everything a load into a pool says when it fails with `ProgramTooLarge`. -/
theorem Pool.loadAt_programTooLarge {p q : Pool} {k : Nat} {P : List Text} (h : p.loadAt k P = .programTooLarge q) :
    ∃ s t, p[k]? = some s ∧ load P s = .programTooLarge t ∧ q = p.set k t := by
  simp only [Pool.loadAt] at h
  split at h
  · cases h
  · next s hs =>
    split at h
    · cases h
    · next t ht => cases h; exact ⟨s, t, hs, ht, rfl⟩
    · cases h

end Sys2Proof.Machine
end

