-- ==== Sys2Proof/Laws/PerInstr.lean ====
section
/-! SUPPORT. Laws of every instruction as syntax, one lemma per constructor. -/

namespace Sys2Proof.Laws.EncodedForm

/-- The canonical spelling of an instruction has the form of its mnemonic: the number of tokens its format gives
(spec R55, R56), and cut into tokens it is the mnemonic and the operands, in that order (R48, R49). -/
def Statement (i : Instr) : Prop :=
  1 + i.operandTokens.length = i.opcode.format.tokenCount ∧
    ∀ cfg : Config, cfg.plainWs = true → tokens cfg.ws (encode i) = i.opcode.bytes :: i.operandTokens

theorem mov (d : Reg) (imm : Int) : Statement (.mov d imm) := ⟨rfl, fun _ h => tokens_encode h _⟩

theorem add (d s : Reg) : Statement (.add d s) := ⟨rfl, fun _ h => tokens_encode h _⟩

theorem sub (d s : Reg) : Statement (.sub d s) := ⟨rfl, fun _ h => tokens_encode h _⟩

theorem load (d : Reg) (addr : Nat) : Statement (.load d addr) := ⟨rfl, fun _ h => tokens_encode h _⟩

theorem store (s : Reg) (addr : Nat) : Statement (.store s addr) := ⟨rfl, fun _ h => tokens_encode h _⟩

theorem jmp (addr : Nat) : Statement (.jmp addr) := ⟨rfl, fun _ h => tokens_encode h _⟩

theorem jz (s : Reg) (addr : Nat) : Statement (.jz s addr) := ⟨rfl, fun _ h => tokens_encode h _⟩

theorem jnz (s : Reg) (addr : Nat) : Statement (.jnz s addr) := ⟨rfl, fun _ h => tokens_encode h _⟩

theorem hlt : Statement .hlt := ⟨rfl, fun _ h => tokens_encode h _⟩

end Sys2Proof.Laws.EncodedForm
end

