-- ==== Sys2Proof/Tests/Slice0.lean ====
section
/-! SUPPORT. Small tests, with expected results from the spec's test vectors (spec/95_test_vectors.md, cited by id) or from the
rule cited, and for each statement with hypotheses a state and operands that meet them. -/

namespace Sys2Proof.Tests

open Sys2Proof Sys2Proof.Machine

/-! ## Texts, spelled byte by byte -/

/-- `MOV R0 10` (S1). -/
def tMov : Text := [0x4D#8, 0x4F#8, 0x56#8, 0x20#8, 0x52#8, 0x30#8, 0x20#8, 0x31#8, 0x30#8]

/-- `MOV R0 -5` (E11). -/
def tMovNeg : Text := [0x4D#8, 0x4F#8, 0x56#8, 0x20#8, 0x52#8, 0x30#8, 0x20#8, 0x2D#8, 0x35#8]

/-- `ADD R0 R1` (E4). -/
def tAdd : Text := [0x41#8, 0x44#8, 0x44#8, 0x20#8, 0x52#8, 0x30#8, 0x20#8, 0x52#8, 0x31#8]

/-- `SUB R1 R2` (A8). -/
def tSub : Text := [0x53#8, 0x55#8, 0x42#8, 0x20#8, 0x52#8, 0x31#8, 0x20#8, 0x52#8, 0x32#8]

/-- `LOAD R1 50` (S6). -/
def tLoad : Text := [0x4C#8, 0x4F#8, 0x41#8, 0x44#8, 0x20#8, 0x52#8, 0x31#8, 0x20#8, 0x35#8, 0x30#8]

/-- `LOAD R0 0` (L7). -/
def tLoadSelf : Text := [0x4C#8, 0x4F#8, 0x41#8, 0x44#8, 0x20#8, 0x52#8, 0x30#8, 0x20#8, 0x30#8]

/-- `STORE R0 50` (S6). -/
def tStore : Text := [0x53#8, 0x54#8, 0x4F#8, 0x52#8, 0x45#8, 0x20#8, 0x52#8, 0x30#8, 0x20#8, 0x35#8, 0x30#8]

/-- `STORE R0 1` (L9). -/
def tStoreNext : Text := [0x53#8, 0x54#8, 0x4F#8, 0x52#8, 0x45#8, 0x20#8, 0x52#8, 0x30#8, 0x20#8, 0x31#8]

/-- `JMP 3` (J1). -/
def tJmp : Text := [0x4A#8, 0x4D#8, 0x50#8, 0x20#8, 0x33#8]

/-- `JZ R0 4` (J5). -/
def tJz : Text := [0x4A#8, 0x5A#8, 0x20#8, 0x52#8, 0x30#8, 0x20#8, 0x34#8]

/-- `JNZ R1 3` (J10). -/
def tJnz : Text := [0x4A#8, 0x4E#8, 0x5A#8, 0x20#8, 0x52#8, 0x31#8, 0x20#8, 0x33#8]

/-- `HLT` (S3). -/
def tHlt : Text := [0x48#8, 0x4C#8, 0x54#8]

/-- `LOAD R0 256` (E32). -/
def tLoadFar : Text := [0x4C#8, 0x4F#8, 0x41#8, 0x44#8, 0x20#8, 0x52#8, 0x30#8, 0x20#8, 0x32#8, 0x35#8, 0x36#8]

/-- `JMP -1` (E34). -/
def tJmpNeg : Text := [0x4A#8, 0x4D#8, 0x50#8, 0x20#8, 0x2D#8, 0x31#8]

/-- `MOVE R9 5` (E17). -/
def tMove : Text := [0x4D#8, 0x4F#8, 0x56#8, 0x45#8, 0x20#8, 0x52#8, 0x39#8, 0x20#8, 0x35#8]

/-- `MOV R7 1` (E25). -/
def tMovR7 : Text := [0x4D#8, 0x4F#8, 0x56#8, 0x20#8, 0x52#8, 0x37#8, 0x20#8, 0x31#8]

/-! ## Helpers -/

/-- The next state of an outcome, where there is one. -/
def nextState {σ : Type} : Host.Outcome σ Fault Refusal → Option σ
  | .next s => some s
  | .fault _ => none
  | .refused _ => none

/-- The result of `parse`, as two options that can be compared. -/
def parsed (t : Text) : Option Instr := (parse Config.default t).toOption

/-- The fault that `parse` raises. -/
def parseFault (t : Text) : Option Cause :=
  match parse Config.default t with
  | .ok _ => none
  | .error e => some (causeOf e)

/-- The default parameters with 4 cells, and with 8-bit integers (vectors with `CAP = 4`, `XLEN = 8`). -/
def tiny : Config := { Config.default with cap := 4, xlen := .bits 8 }

/-- A newly created Core with these parameters. -/
def created (cfg : Config) : State := { State.reset with cfg := cfg }

/-- The Core just after `load(P)`. -/
def loaded (P : List Text) : State :=
  { State.reset with running := true, mem := Memory.ofProgram 0 P }

/-- The same with register values. -/
def loadedWith (r0 r1 r2 r3 : Int) (P : List Text) : State :=
  { loaded P with x := { r0 := r0, r1 := r1, r2 := r2, r3 := r3 } }

/-- The same at a cell other than 0. -/
def loadedAt (a : Nat) (r0 r1 : Int) (t : Text) : State :=
  { State.reset with running := true, pc := a, x := { r0 := r0, r1 := r1, r2 := 0, r3 := 0 }, mem := [(a, .instr t)] }

/-! ## Well-formedness: each check refuses an ill-formed term -/

theorem test_wellFormed_mov_imm_high : Instr.wellFormed Config.default (.mov 0 2147483648) = false :=
  by decide

theorem test_wellFormed_mov_imm_low : Instr.wellFormed Config.default (.mov 0 (-2147483649)) = false :=
  by decide

theorem test_wellFormed_mov_imm_bounds : Instr.wellFormed Config.default (.mov 0 2147483647) = true ∧
    Instr.wellFormed Config.default (.mov 0 (-2147483648)) = true :=
  by decide

theorem test_wellFormed_addresses : ∀ i ∈ [Instr.load 0 256, .store 0 256, .jmp 256, .jz 0 256, .jnz 0 256],
    i.wellFormed Config.default = false :=
  by decide

theorem test_wellFormed_last_address : ∀ i ∈ [Instr.load 0 255, .store 0 255, .jmp 255, .jz 0 255, .jnz 0 255],
    i.wellFormed Config.default = true :=
  by decide

/-! ## Decoding: texts spelled from the spec -/

/-- S1. -/
theorem test_decode_mov : parsed tMov = some (.mov 0 10) :=
  by decide

/-- E11. -/
theorem test_decode_mov_negative : parsed tMovNeg = some (.mov 0 (-5)) :=
  by decide

/-- E4. -/
theorem test_decode_add : parsed tAdd = some (.add 0 1) :=
  by decide

/-- A8. -/
theorem test_decode_sub : parsed tSub = some (.sub 1 2) :=
  by decide

/-- S6. -/
theorem test_decode_load : parsed tLoad = some (.load 1 50) :=
  by decide

/-- S6. -/
theorem test_decode_store : parsed tStore = some (.store 0 50) :=
  by decide

/-- J1. -/
theorem test_decode_jmp : parsed tJmp = some (.jmp 3) :=
  by decide

/-- S7. -/
theorem test_decode_jz : parsed tJz = some (.jz 0 4) :=
  by decide

/-- E9. -/
theorem test_decode_jnz : parsed tJnz = some (.jnz 1 3) :=
  by decide

/-- S3. -/
theorem test_decode_hlt : parsed tHlt = some .hlt :=
  by decide

/-- E10: runs, a tab, leading and trailing whitespace. -/
theorem test_decode_whitespace : parsed [0x20#8, 0x20#8, 0x4D#8, 0x4F#8, 0x56#8, 0x20#8, 0x20#8, 0x20#8, 0x52#8, 0x30#8, 0x09#8, 0x37#8, 0x20#8, 0x20#8] = some (.mov 0 7) :=
  by decide

/-- E43. -/
theorem test_decode_leading_zeros : parsed [0x4A#8, 0x4D#8, 0x50#8, 0x20#8, 0x30#8, 0x30#8, 0x32#8, 0x35#8, 0x35#8] = some (.jmp 255) :=
  by decide

/-- E13. -/
theorem test_decode_minus_zero : parsed [0x4D#8, 0x4F#8, 0x56#8, 0x20#8, 0x52#8, 0x30#8, 0x20#8, 0x2D#8, 0x30#8] = some (.mov 0 0) :=
  by decide

/-- E31. -/
theorem test_decode_imm_top : parsed [0x4D#8, 0x4F#8, 0x56#8, 0x20#8, 0x52#8, 0x30#8, 0x20#8, 0x32#8, 0x31#8, 0x34#8, 0x37#8, 0x34#8, 0x38#8, 0x33#8, 0x36#8, 0x34#8, 0x37#8] = some (.mov 0 2147483647) :=
  by decide

/-- E14. -/
theorem test_fault_empty : parseFault [] = some .invalidOpcode :=
  by decide

/-- E15. -/
theorem test_fault_blank : parseFault [0x20#8, 0x20#8, 0x20#8] = some .invalidOpcode :=
  by decide

/-- E16. -/
theorem test_fault_case : parseFault [0x6D#8, 0x6F#8, 0x76#8, 0x20#8, 0x52#8, 0x30#8, 0x20#8, 0x31#8] = some .invalidOpcode :=
  by decide

/-- E17: the mnemonic is checked before the operands. -/
theorem test_fault_mnemonic_first : parseFault tMove = some .invalidOpcode :=
  by decide

/-- E18. -/
theorem test_fault_comma : parseFault [0x4D#8, 0x4F#8, 0x56#8, 0x20#8, 0x52#8, 0x30#8, 0x2C#8, 0x20#8, 0x31#8, 0x30#8] = some .invalidOperand :=
  by decide

/-- E19. -/
theorem test_fault_register_case : parseFault [0x4D#8, 0x4F#8, 0x56#8, 0x20#8, 0x72#8, 0x30#8, 0x20#8, 0x31#8] = some .invalidOperand :=
  by decide

/-- E20. -/
theorem test_fault_too_few : parseFault [0x4D#8, 0x4F#8, 0x56#8, 0x20#8, 0x52#8, 0x30#8] = some .invalidOperand :=
  by decide

/-- E21. -/
theorem test_fault_too_many : parseFault [0x48#8, 0x4C#8, 0x54#8, 0x20#8, 0x31#8] = some .invalidOperand :=
  by decide

/-- E23. -/
theorem test_fault_no_register_move : parseFault [0x4D#8, 0x4F#8, 0x56#8, 0x20#8, 0x52#8, 0x30#8, 0x20#8, 0x52#8, 0x31#8] = some .invalidOperand :=
  by decide

/-- E24. -/
theorem test_fault_no_add_immediate : parseFault [0x41#8, 0x44#8, 0x44#8, 0x20#8, 0x52#8, 0x30#8, 0x20#8, 0x35#8] = some .invalidOperand :=
  by decide

/-- E25. -/
theorem test_fault_register_seven : parseFault tMovR7 = some .invalidOperand :=
  by decide

/-- E26. -/
theorem test_fault_two_digit_register : parseFault [0x4D#8, 0x4F#8, 0x56#8, 0x20#8, 0x52#8, 0x31#8, 0x30#8, 0x20#8, 0x31#8] = some .invalidOperand :=
  by decide

/-- E27. -/
theorem test_fault_plus : parseFault [0x4D#8, 0x4F#8, 0x56#8, 0x20#8, 0x52#8, 0x30#8, 0x20#8, 0x2B#8, 0x35#8] = some .invalidOperand :=
  by decide

/-- E28. -/
theorem test_fault_hex : parseFault [0x4D#8, 0x4F#8, 0x56#8, 0x20#8, 0x52#8, 0x30#8, 0x20#8, 0x30#8, 0x78#8, 0x31#8, 0x30#8] = some .invalidOperand :=
  by decide

/-- E29. -/
theorem test_fault_imm_high : parseFault [0x4D#8, 0x4F#8, 0x56#8, 0x20#8, 0x52#8, 0x30#8, 0x20#8, 0x32#8, 0x31#8, 0x34#8, 0x37#8, 0x34#8, 0x38#8, 0x33#8, 0x36#8, 0x34#8, 0x38#8] = some .invalidOperand :=
  by decide

/-- E30. -/
theorem test_fault_imm_low : parseFault [0x4D#8, 0x4F#8, 0x56#8, 0x20#8, 0x52#8, 0x30#8, 0x20#8, 0x2D#8, 0x32#8, 0x31#8, 0x34#8, 0x37#8, 0x34#8, 0x38#8, 0x33#8, 0x36#8, 0x34#8, 0x39#8] = some .invalidOperand :=
  by decide

/-- E32. -/
theorem test_fault_address_cap : parseFault tLoadFar = some .invalidOperand :=
  by decide

/-- E34. -/
theorem test_fault_address_negative : parseFault tJmpNeg = some .invalidOperand :=
  by decide

/-- E36. -/
theorem test_fault_semicolon : parseFault [0x48#8, 0x4C#8, 0x54#8, 0x3B#8] = some .invalidOpcode :=
  by decide

/-- E41. -/
theorem test_fault_no_digits : parseFault [0x4D#8, 0x4F#8, 0x56#8, 0x20#8, 0x52#8, 0x30#8, 0x20#8, 0x2D#8] = some .invalidOperand :=
  by decide

/-- E39. -/
theorem test_fault_register_four : parseFault [0x41#8, 0x44#8, 0x44#8, 0x20#8, 0x52#8, 0x34#8, 0x20#8, 0x52#8, 0x30#8] = some .invalidOperand :=
  by decide

/-- E29 with `XLEN = INF`. -/
theorem test_unbounded_accepts_wide_immediate : (parse { Config.default with xlen := .inf }
    [0x4D#8, 0x4F#8, 0x56#8, 0x20#8, 0x52#8, 0x30#8, 0x20#8, 0x32#8, 0x31#8, 0x34#8, 0x37#8, 0x34#8, 0x38#8, 0x33#8, 0x36#8, 0x34#8, 0x38#8]).toOption = some (.mov 0 2147483648) :=
  by decide

/-- R62: the canonical spelling of S1, S7, S3, E11. -/
theorem test_encode_canonical : encode (.mov 0 10) = tMov ∧ encode (.jz 0 4) = tJz ∧ encode .hlt = tHlt ∧ encode (.mov 0 (-5)) = tMovNeg :=
  by decide

/-- R63: the `match` column of the opcode table. -/
theorem test_table_match : Opcode.all.map (fun o => bigEndianValue o.bytes) =
    [0x4D4F56, 0x414444, 0x535542, 0x4C4F4144, 0x53544F5245, 0x4A4D50, 0x4A5A, 0x4A4E5A, 0x484C54] :=
  by decide

/-- Each row of the opcode table, its operands zero (log entry 6). -/
theorem test_table_words : decodeTableWord 24 0x4D4F56 = some (.mov 0 0) ∧ decodeTableWord 24 0x414444 = some (.add 0 0) ∧
    decodeTableWord 24 0x535542 = some (.sub 0 0) ∧ decodeTableWord 32 0x4C4F4144 = some (.load 0 0) ∧
    decodeTableWord 40 0x53544F5245 = some (.store 0 0) ∧ decodeTableWord 24 0x4A4D50 = some (.jmp 0) ∧
    decodeTableWord 16 0x4A5A = some (.jz 0 0) ∧ decodeTableWord 24 0x4A4E5A = some (.jnz 0 0) ∧
    decodeTableWord 24 0x484C54 = some .hlt :=
  by decide

/-- One bit away from MOV. -/
theorem test_table_no_row : decodeTableWord 24 0x4D4F57 = none :=
  by decide

/-- The placed HLT runs as the first instruction after creation. -/
theorem test_placed_word_runs : nextState (step (State.reset.withFetchWord 24 0x484C54)) =
    some { State.reset.withFetchWord 24 0x484C54 with pc := 1, running := false } :=
  by decide

/-- The placed `STORE R0 0` overwrites its own cell with `Int(0)`, which memory does not list. -/
theorem test_placed_store_runs : (nextState (step (State.reset.withFetchWord 40 0x53544F5245))).map (fun t => (t.pc, t.running, t.mem)) =
    some (1, true, []) :=
  by decide

/-! ## Integers -/

/-- A4, A11. -/
theorem test_wrap_32 : wrap Config.default 2147483648 = -2147483648 ∧ wrap Config.default (-2147483649) = 2147483647 :=
  by decide

/-- A15, M7. -/
theorem test_wrap_8 : wrap tiny 200 = -56 ∧ wrap tiny 127 = 127 ∧ wrap tiny (-128) = -128 :=
  by decide

/-- A4 with `INF`. -/
theorem test_wrap_inf : wrap { Config.default with xlen := .inf } 2147483648 = 2147483648 :=
  by decide

/-! ## Instructions: one step each -/

/-- M1. -/
theorem test_mov : (nextState (step (loaded [tMov]))).map (fun t => (t.x.get 0, t.pc, t.running)) = some (10, 1, true) :=
  by decide

/-- E11: the other registers keep their values. -/
theorem test_mov_negative : (nextState (step (loadedWith 9 9 9 9 [tMovNeg]))).map (fun t => (t.x.get 0, t.x.get 1)) = some (-5, 9) :=
  by decide

/-- A1. -/
theorem test_add : (nextState (step (loadedWith 10 20 0 0 [tAdd]))).map (fun t => (t.x.get 0, t.x.get 1)) = some (30, 20) :=
  by decide

/-- A4. -/
theorem test_add_wraps : (nextState (step (loadedWith 2147483647 1 0 0 [tAdd]))).map (fun t => (t.x.get 0, t.fault)) = some (-2147483648, none) :=
  by decide

/-- A9. -/
theorem test_sub_order : (nextState (step (loadedWith 0 1 5 0 [tSub]))).map (fun t => (t.x.get 1, t.x.get 2)) = some (-4, 5) :=
  by decide

/-- L2. -/
theorem test_load : (nextState (step ({ loaded [tLoad] with mem := [(0, .instr tLoad), (50, .int 5)] }))).map (fun t => (t.x.get 1, t.cell 50, t.pc)) = some (5, .int 5, 1) :=
  by decide

/-- L7. -/
theorem test_load_own_cell : (nextState (step (loaded [tLoadSelf]))).map (fun t => (t.x.get 0, t.fault, t.running, t.pc)) = some (0, some .invalidOperand, false, 1) :=
  by decide

/-- L1. -/
theorem test_store : (nextState (step (loadedWith 5 0 0 0 [tStore]))).map (fun t => (t.cell 50, t.cell 0, t.x.get 0)) = some (.int 5, .instr tStore, 5) :=
  by decide

/-- L9, first step; storing 0 unlists the cell. -/
theorem test_store_over_instruction : (nextState (step (loadedWith 0 0 0 0 [tStoreNext, tHlt]))).map (fun t => (t.cell 1, t.mem)) = some (.int 0, [(0, .instr tStoreNext)]) :=
  by decide

/-- J1. -/
theorem test_jmp : (nextState (step (loadedAt 5 0 0 tJmp))).map (fun t => (t.pc, t.running)) = some (3, true) :=
  by decide

/-- J5. -/
theorem test_jz_taken : (nextState (step (loadedAt 1 0 0 tJz))).map (fun t => t.pc) = some 4 :=
  by decide

/-- J7. -/
theorem test_jz_negative_not_taken : (nextState (step (loadedAt 1 (-1) 0 tJz))).map (fun t => t.pc) = some 2 :=
  by decide

/-- J12. -/
theorem test_jnz_taken : (nextState (step (loadedAt 5 0 (-3) tJnz))).map (fun t => t.pc) = some 3 :=
  by decide

/-- J11. -/
theorem test_jnz_not_taken : (nextState (step (loadedAt 5 0 0 tJnz))).map (fun t => t.pc) = some 6 :=
  by decide

/-- H2: HLT in the last cell. -/
theorem test_hlt_last_cell : (nextState (step ({ loadedAt 3 0 0 tHlt with cfg := tiny }))).map (fun t => (t.pc, t.running, t.fault)) = some (4, false, none) :=
  by decide

/-- K11. -/
theorem test_end_of_memory : (nextState (step ({ loaded [] with cfg := tiny, pc := 4 }))).map (fun t => (t.pc, t.running, t.fault)) = some (4, false, some .endOfMemory) :=
  by decide

/-- K6. -/
theorem test_integer_cell : (nextState (step (loaded []))).map (fun t => (t.pc, t.running, t.fault)) = some (1, false, some .invalidOpcode) :=
  by decide

/-- F1. -/
theorem test_register_out_of_range : (nextState (step (loaded [tMovR7]))).map (fun t => (t.pc, t.fault, t.x.get 0)) = some (1, some .invalidOperand, 0) :=
  by decide

/-- J9, with `CAP = 4`: the address 4 is out of range and the jump would not be taken. -/
theorem test_untaken_jump_checks_address : (nextState (step ({ loadedAt 1 1 0 tJz with cfg := tiny }))).map (fun t => (t.pc, t.fault)) = some (2, some .invalidOperand) :=
  by decide

/-! ## Load, run, snapshot -/

/-- K3. -/
theorem test_load_program : load [tHlt] (created tiny) =
    .loaded { created tiny with running := true, mem := [(0, .instr tHlt)] } :=
  by decide

/-- K5. -/
theorem test_load_too_large : load [tHlt, tHlt, tHlt, tHlt, tHlt] (created tiny) = .programTooLarge (created tiny) :=
  by decide

/-- R113, V12. -/
theorem test_load_running_refused : load [tHlt] (loaded []) = .refused .loadWhileRunning :=
  by decide

/-- H3. -/
theorem test_run_hlt : (run 1 (loaded [tHlt])).map (fun t => (t.pc, runEnd t)) = some (1, some .normal) :=
  by decide

/-- R102. -/
theorem test_fault_codes : [none, some .invalidOpcode, some .invalidOperand, some .endOfMemory].map faultCode = [0, 1, 2, 3] :=
  by decide

/-- R74. -/
theorem test_snapshot : snapshotOf 2 (loaded [tHlt]) =
    { pc := 0, x := { r0 := 0, r1 := 0, r2 := 0, r3 := 0 }, head := [.instr tHlt, .int 0] } :=
  by decide

/-- F6: a fault of one Core leaves the other as it was. -/
theorem test_pool_contained : (nextState (Pool.stepAt [loaded [tMovR7], loaded [tMov]] 0)).bind (fun q => q[1]?) = some (loaded [tMov]) :=
  by decide

/-- R113, V12: no such transition, in a pool either. -/
theorem test_pool_load_running_refused : Pool.loadAt [loaded [tMov]] 0 [tHlt] = .refused .loadWhileRunning :=
  by decide

/-! ## Witnesses: for each statement with hypotheses, a state and operands that meet them -/

theorem witness_WrapIsTheOnlyCongruentValue : Config.default.wf = true ∧ Config.default.xlen = .bits 32 ∧ Config.default.inValue 5 = true ∧
    ((2 ^ 32 : Nat) : Int) ∣ 5 - 4294967301 ∧
    ({ Config.default with xlen := .inf } : Config).wf = true ∧ tiny.wf = true :=
  by decide

theorem witness_SubThenAddRestoresTheRegister : (loadedWith 7 9 0 0 []).cfg.wf = true ∧
    (loadedWith 7 9 0 0 []).cfg.inValue ((loadedWith 7 9 0 0 []).x.get 0) = true ∧ (1 : Reg) ≠ 0 :=
  by decide

theorem witness_SubThenJzJumpsExactlyOnEqualRegisters_equal : (loadedWith 7 7 0 0 []).cfg.wf = true ∧ (0 : Reg) ≠ 1 ∧ 255 < (loadedWith 7 7 0 0 []).cfg.cap ∧
    (loadedWith 7 7 0 0 []).cfg.inValue 7 = true ∧ (loadedWith 7 7 0 0 []).x.get 0 = (loadedWith 7 7 0 0 []).x.get 1 :=
  by decide

theorem witness_SubThenJzJumpsExactlyOnEqualRegisters_different : (loadedWith 2147483647 (-2147483648) 0 0 []).x.get 0 ≠ (loadedWith 2147483647 (-2147483648) 0 0 []).x.get 1 ∧
    Config.default.inValue 2147483647 = true ∧ Config.default.inValue (-2147483648) = true :=
  by decide

theorem witness_TokensAreTheMaximalRuns : [0x20#8, 0x09#8] ≠ [] ∧ (∀ c ∈ [0x20#8, 0x09#8], c ∈ Config.default.ws) ∧
    tokens Config.default.ws ([0x4A#8, 0x5A#8] ++ [0x20#8, 0x09#8] ++ [0x52#8, 0x30#8]) = [[0x4A#8, 0x5A#8], [0x52#8, 0x30#8]] :=
  by decide

theorem witness_RegisterOperandsAreRAndADigit : regOperand [0x52#8, 0x30#8] = .ok 0 ∧ regOperand [0x52#8, 0x33#8] = .ok 3 ∧
    regOperand [0x52#8, 0x34#8] = .error .registerOutOfRange ∧ regOperand [0x52#8, 0x39#8] = .error .registerOutOfRange ∧
    regOperand [0x72#8, 0x30#8] = .error .malformedRegister :=
  ⟨rfl, rfl, rfl, rfl, rfl⟩

theorem witness_LiteralsAreSignedDecimalNumerals : literal [0x30#8, 0x30#8, 0x37#8] = some 7 ∧ literal [0x2D#8, 0x35#8] = some (-5) ∧ literal [0x2D#8, 0x30#8] = some 0 ∧
    literal [0x2D#8] = none ∧ literal [] = none :=
  by decide

theorem witness_ImmediateOperandsAreLiteralsInValue : immOperand tiny [0x31#8, 0x32#8, 0x37#8] = .ok 127 ∧ immOperand tiny [0x2D#8, 0x31#8, 0x32#8, 0x38#8] = .ok (-128) ∧
    immOperand tiny [0x31#8, 0x32#8, 0x38#8] = .error .immediateOutOfRange ∧ immOperand tiny [0x2D#8, 0x31#8, 0x32#8, 0x39#8] = .error .immediateOutOfRange :=
  ⟨rfl, rfl, rfl, rfl⟩

theorem witness_AddressOperandsAreLiteralsBelowCap : addrOperand tiny [0x30#8] = .ok 0 ∧ addrOperand tiny [0x33#8] = .ok 3 ∧
    literal [0x34#8] = some (tiny.cap : Int) ∧ literal [0x2D#8, 0x31#8] = some (-1) ∧ literal [0x52#8, 0x30#8] = none :=
  ⟨rfl, rfl, by decide, by decide, by decide⟩

theorem witness_ParseFollowsTheOrderOfChecks_no_token : tokens Config.default.ws [0x20#8] = [] :=
  by decide

theorem witness_ParseFollowsTheOrderOfChecks_unknown : tokens Config.default.ws tMove = [[0x4D#8, 0x4F#8, 0x56#8, 0x45#8], [0x52#8, 0x39#8], [0x35#8]] ∧
    ∀ o ∈ Opcode.all, [0x4D#8, 0x4F#8, 0x56#8, 0x45#8] ≠ o.bytes :=
  by decide

theorem witness_ParseFollowsTheOrderOfChecks_count : tokens Config.default.ws [0x48#8, 0x4C#8, 0x54#8, 0x20#8, 0x31#8] = [Opcode.hlt.bytes, [0x31#8]] ∧ 1 + 1 ≠ Opcode.hlt.format.tokenCount :=
  by decide

theorem witness_ParseFollowsTheOrderOfChecks_operands : tokens Config.default.ws tMovR7 = [Opcode.mov.bytes, [0x52#8, 0x37#8], [0x31#8]] ∧
    1 + 2 = Opcode.mov.format.tokenCount ∧ validOperand Config.default .register [0x52#8, 0x37#8] = false ∧
    validOperand Config.default .immediate [0x31#8] = true ∧ validOperand Config.default .register [0x52#8, 0x33#8] = true :=
  by decide

theorem witness_ParsedInstructionsAreInRange : parse Config.default tMov = .ok (.mov 0 10) :=
  rfl

theorem witness_EncodedInstructionsDecodeToThemselves : Config.default.plainWs = true ∧ tiny.plainWs = true ∧ Instr.wellFormed Config.default (.store 3 255) = true :=
  by decide

theorem witness_MovWritesTheImmediate : State.fetches (loaded [tMov]) tMov ∧
    tokens (loaded [tMov]).cfg.ws tMov = [0x4D#8, 0x4F#8, 0x56#8] :: [[0x52#8, 0x30#8], [0x31#8, 0x30#8]] ∧ (loaded [tMov]).cfg.inValue 10 = true :=
  ⟨⟨by decide, by decide, by decide⟩, by decide, by decide⟩

theorem witness_AddWritesTheWrappedSum : State.fetches (loaded [tAdd]) tAdd ∧
    tokens (loaded [tAdd]).cfg.ws tAdd = [0x41#8, 0x44#8, 0x44#8] :: [[0x52#8, 0x30#8], [0x52#8, 0x31#8]] :=
  ⟨⟨by decide, by decide, by decide⟩, by decide⟩

theorem witness_SubWritesTheWrappedDifference : State.fetches (loaded [tSub]) tSub ∧
    tokens (loaded [tSub]).cfg.ws tSub = [0x53#8, 0x55#8, 0x42#8] :: [[0x52#8, 0x31#8], [0x52#8, 0x32#8]] :=
  ⟨⟨by decide, by decide, by decide⟩, by decide⟩

theorem witness_LoadReadsAnIntegerCell : State.fetches (loaded [tLoad]) tLoad ∧
    tokens (loaded [tLoad]).cfg.ws tLoad = [0x4C#8, 0x4F#8, 0x41#8, 0x44#8] :: [[0x52#8, 0x31#8], [0x35#8, 0x30#8]] ∧ ((loaded [tLoad]).cell 50 = .int 0 ∧ (loaded [tLoad]).cell 0 = .instr tLoad ∧
    50 < (loaded [tLoad]).cfg.cap) :=
  ⟨⟨by decide, by decide, by decide⟩, by decide, by decide⟩

theorem witness_StoreWritesTheRegisterToTheCell : State.fetches (loaded [tStore]) tStore ∧
    tokens (loaded [tStore]).cfg.ws tStore = [0x53#8, 0x54#8, 0x4F#8, 0x52#8, 0x45#8] :: [[0x52#8, 0x30#8], [0x35#8, 0x30#8]] ∧ 255 < (loaded [tStore]).cfg.cap :=
  ⟨⟨by decide, by decide, by decide⟩, by decide, by decide⟩

theorem witness_JmpSetsThePc : State.fetches (loaded [tJmp]) tJmp ∧
    tokens (loaded [tJmp]).cfg.ws tJmp = [0x4A#8, 0x4D#8, 0x50#8] :: [[0x33#8]] ∧ 255 < (loaded [tJmp]).cfg.cap :=
  ⟨⟨by decide, by decide, by decide⟩, by decide, by decide⟩

theorem witness_JzJumpsOnZero : State.fetches (loaded [tJz]) tJz ∧
    tokens (loaded [tJz]).cfg.ws tJz = [0x4A#8, 0x5A#8] :: [[0x52#8, 0x30#8], [0x34#8]] ∧ 255 < (loaded [tJz]).cfg.cap :=
  ⟨⟨by decide, by decide, by decide⟩, by decide, by decide⟩

theorem witness_JnzJumpsOnNonzero : State.fetches (loaded [tJnz]) tJnz ∧
    tokens (loaded [tJnz]).cfg.ws tJnz = [0x4A#8, 0x4E#8, 0x5A#8] :: [[0x52#8, 0x31#8], [0x33#8]] ∧ 255 < (loaded [tJnz]).cfg.cap :=
  ⟨⟨by decide, by decide, by decide⟩, by decide, by decide⟩

theorem witness_HltStopsTheCoreNormally : State.fetches (loaded [tHlt]) tHlt ∧
    tokens (loaded [tHlt]).cfg.ws tHlt = [0x48#8, 0x4C#8, 0x54#8] :: [] :=
  ⟨⟨by decide, by decide, by decide⟩, by decide⟩

theorem witness_OutOfRangeReferencesRaiseInvalidOperand_text : State.fetches (loaded [tLoadFar]) tLoadFar ∧
    tokens (loaded [tLoadFar]).cfg.ws tLoadFar = [Opcode.load.bytes, [0x52#8, 0x30#8], [0x32#8, 0x35#8, 0x36#8]] ∧
    literal [0x32#8, 0x35#8, 0x36#8] = some 256 ∧ ¬ ((0 : Int) ≤ 256 ∧ (256 : Int) ≤ ((loaded [tLoadFar]).cfg.cap : Int) - 1) :=
  ⟨⟨by decide, by decide, by decide⟩, by decide, by decide, by decide⟩

theorem witness_OutOfRangeReferencesRaiseInvalidOperand_term : Instr.wellFormed State.reset.cfg (.jmp 256) = false :=
  by decide

theorem witness_RegisterWritersFrame : nextState (exec (.load 1 50) (loaded [tLoad])) = some ((loaded [tLoad]).setReg 1 0) ∧
    nextState (exec (.load 1 0) (loaded [tLoad])) = some ((loaded [tLoad]).enterFault .invalidOperand) :=
  by decide

theorem witness_StoreFrame : nextState (exec (.store 0 255) (loadedWith 5 0 0 0 [])) = some ((loadedWith 5 0 0 0 []).setCell 255 (.int 5)) :=
  by decide

theorem witness_JumpsFrame : jumpTarget (.jz 0 4) = some 4 ∧ nextState (exec (.jz 0 4) (loaded [])) = some ((loaded []).setPc 4) :=
  by decide

theorem witness_HltFrame : nextState (exec .hlt (loaded [])) = some (loaded []).halt :=
  by decide

theorem witness_InstructionsIgnoreRegistersTheyDoNotName : (2 : Reg) ∉ registersNamed (.add 0 1) ∧ nextState (exec (.add 0 1) (loadedWith 1 2 3 4 [])) =
    some ((loadedWith 1 2 3 4 []).setReg 0 3) :=
  by decide

theorem witness_InstructionsRaiseOnlyInvalidOperand : (nextState (exec (.load 0 0) (loaded [tHlt]))).map (fun t => t.fault) ≠ some (loaded [tHlt]).fault :=
  by decide

theorem witness_MemWriteReplacesOneCell : Memory.wf (loaded [tStore]).mem ∧ (50 : Nat) ≠ 0 :=
  by decide

theorem witness_MemReadGivesTheIntegerLastWritten : (loaded [tHlt]).cell 1 = .int 0 ∧ (loaded [tHlt]).cell 0 = .instr tHlt ∧ (1 : Nat) ≠ 0 :=
  by decide

theorem witness_StoreIsSeenByTheNextFetch : State.fetches (loaded [tStoreNext, tHlt]) tStoreNext ∧
    parse (loaded [tStoreNext, tHlt]).cfg tStoreNext = .ok (.store 0 ((loaded [tStoreNext, tHlt]).pc + 1)) :=
  ⟨⟨by decide, by decide, by decide⟩, rfl⟩

theorem witness_NoStepCreatesAnInstructionCell_store : State.fetches (loaded [tStoreNext, tHlt]) tStoreNext ∧
    parse (loaded [tStoreNext, tHlt]).cfg tStoreNext = .ok (.store 0 1) ∧ (loaded [tStoreNext, tHlt]).cell 1 = .instr tHlt :=
  ⟨⟨by decide, by decide, by decide⟩, rfl, by decide⟩

theorem witness_NoStepCreatesAnInstructionCell : ∃ t, step (loaded [tMov]) = .next t ∧ t.cell 0 = .instr tMov :=
  ⟨_, rfl, by decide⟩

theorem witness_OnlyStoreWritesMemory : ∃ t, step (loaded [tStoreNext, tHlt]) = .next t ∧ t.cell 1 ≠ (loaded [tStoreNext, tHlt]).cell 1 :=
  ⟨_, rfl, by decide⟩

theorem witness_StepRunsTheFetchedInstruction : State.fetches (loaded [tJz]) tJz ∧ parse (loaded [tJz]).cfg tJz = .ok (.jz 0 4) :=
  ⟨⟨by decide, by decide, by decide⟩, rfl⟩

theorem witness_FetchPastMemoryRaisesEndOfMemory : ({ loaded [] with cfg := tiny, pc := 4 } : State).running = true ∧ tiny.cap ≤ 4 :=
  by decide

theorem witness_IllegalCellsRaiseTheirFault : (loaded [tMove]).running = true ∧ (loaded [tMove]).cell 1 = .int 0 ∧
    (loaded [tMove]).pc < (loaded [tMove]).cfg.cap ∧ (loaded [tMove]).cell 0 = .instr tMove ∧
    parse (loaded [tMove]).cfg tMove = .error .unknownMnemonic :=
  ⟨by decide, by decide, by decide, by decide, rfl⟩

theorem witness_IllegalCellsRaiseTheirFault_integer : (loaded []).running = true ∧ (loaded []).pc < (loaded []).cfg.cap ∧ (loaded []).cell (loaded []).pc = .int 0 :=
  by decide

theorem witness_FaultEntryHaltsAndRecordsTheCause : ∃ t, decodeExecute (.instr tMovR7) (loaded []) = .next t ∧ t.fault ≠ (loaded []).fault :=
  ⟨_, rfl, by decide⟩

theorem witness_FaultEntryHaltsAndRecordsTheCause_text : decoder (loaded []).cfg (loaded []).x (loaded []).mem tMovR7 = .error .invalidOperand ∧
    decoder (loaded []).cfg (loaded []).x (loaded []).mem tMove = .error .invalidOpcode :=
  ⟨rfl, rfl⟩

theorem witness_FaultEntryHaltsAndRecordsTheCause_fetch : fetch { loaded [] with cfg := tiny, pc := 4 } = .error .endOfMemory :=
  rfl

theorem witness_FaultingStepsChangeNothingElse : (loaded [tMovR7]).fault = none ∧
    ∃ t, step (loaded [tMovR7]) = .next t ∧ t.fault = some .invalidOperand :=
  ⟨rfl, _, rfl, rfl⟩

theorem witness_EveryStepEndsInOneOfThreeWays : (loaded [tHlt]).running = true ∧ (loaded [tHlt]).fault = none :=
  by decide

theorem witness_PcAfterEveryStep : ∃ t, step (loadedAt 5 0 0 tJmp) = .next t ∧ t.pc = 3 :=
  ⟨_, rfl, rfl⟩

theorem witness_ParametersNeverChange : (∃ t, step (loaded [tMov]) = .next t) ∧ ∃ t, load [tMov] State.reset = .loaded t :=
  ⟨⟨_, rfl⟩, _, rfl⟩

/-- The invariant holds of a Core that is loaded and running. -/
theorem loaded_inv : (loaded [tMov]).Inv := by
  constructor <;> decide

theorem witness_EveryStepKeepsTheInvariant : (loaded [tMov]).Inv ∧ ∃ t, step (loaded [tMov]) = .next t :=
  ⟨loaded_inv, _, rfl⟩

theorem witness_LoadResetsTheCoreAndPlacesTheProgram_fits : (created tiny).running = false ∧ [tHlt, tHlt, tHlt, tHlt].length ≤ (created tiny).cfg.cap ∧
    ∀ p ∈ [tHlt, tHlt, tHlt, tHlt], (created tiny).cfg.fits p = true :=
  by decide

theorem witness_LoadResetsTheCoreAndPlacesTheProgram_too_large : (created tiny).running = false ∧ (created tiny).cfg.cap < [tHlt, tHlt, tHlt, tHlt, tHlt].length ∧ (loaded []).running = true :=
  by decide

theorem witness_LoadedCoreMeetsTheInvariant : State.reset.cfg.wf = true ∧ load [tMov] State.reset = .loaded (loaded [tMov]) :=
  by decide

theorem witness_RunOnAnIdleCoreChangesNothing : State.reset.running = false :=
  by decide

theorem witness_TheEndOfARunIsOneIdleState : ∃ t, run 1 (loaded [tHlt]) = some t :=
  ⟨_, rfl⟩

theorem witness_NormalEndsStandAfterTheHltExecuted : (loaded [tMov, tHlt]).running = true ∧ (loaded [tMov, tHlt]).fault = none ∧
    ∃ t, run 2 (loaded [tMov, tHlt]) = some t ∧ t.fault = none :=
  ⟨rfl, rfl, _, rfl, rfl⟩

/-- The invariant holds of a Core whose program is one illegal text. -/
theorem loaded_move_inv : (loaded [tMove]).Inv := by
  constructor <;> decide

/-- The invariant holds of a Core at the end of its memory. -/
theorem end_inv : ({ loaded [] with cfg := tiny, pc := 4 } : State).Inv := by
  constructor <;> decide

/-- The invariant holds of a Core whose program loads its own cell. -/
theorem loadSelf_inv : (loaded [tLoadSelf]).Inv := by
  constructor <;> decide

theorem witness_FaultedEndsShowTheFaultingCell : (loaded [tMove]).Inv ∧ (loaded [tMove]).running = true ∧
    ∃ t, run 1 (loaded [tMove]) = some t ∧ t.fault = some .invalidOpcode :=
  ⟨loaded_move_inv, rfl, _, rfl, rfl⟩

theorem witness_FaultedEndsShowTheFaultingCell_end : ({ loaded [] with cfg := tiny, pc := 4 } : State).Inv ∧
    ∃ t, run 1 { loaded [] with cfg := tiny, pc := 4 } = some t ∧ t.fault = some .endOfMemory :=
  ⟨end_inv, _, rfl, rfl⟩

theorem witness_FaultedEndsShowTheFaultingCell_load : (loaded [tLoadSelf]).Inv ∧ ∃ t, run 1 (loaded [tLoadSelf]) = some t ∧ t.fault = some .invalidOperand :=
  ⟨loadSelf_inv, _, rfl, rfl⟩

theorem witness_RunsOfLoadedProgramsKeepTheInvariant : State.reset.cfg.wf = true ∧
    ∃ t u, load [tHlt] State.reset = .loaded t ∧ run 1 t = some u :=
  ⟨rfl, _, _, rfl, rfl⟩

theorem witness_ReloadingRepeatsTheRun : (State.reset.enterFault .invalidOpcode).cfg = State.reset.cfg ∧ (State.reset.enterFault .invalidOpcode).running = false ∧
    ∃ t u, load [tHlt] State.reset = .loaded t ∧ run 1 t = some u ∧ run 2 t = some u :=
  ⟨rfl, rfl, _, _, rfl, rfl, rfl⟩

/-- The invariant holds of a faulted Core. -/
theorem faulted_inv : (State.reset.enterFault .invalidOpcode).Inv := by
  constructor <;> decide

theorem witness_FaultsAreTerminalUntilTheNextLoad : (State.reset.enterFault .invalidOpcode).Inv ∧ (State.reset.enterFault .invalidOpcode).fault ≠ none ∧
    ∃ t, load [tHlt] (State.reset.enterFault .invalidOpcode) = .loaded t :=
  ⟨faulted_inv, by decide, _, rfl⟩

theorem witness_OneCoreChangesNoOther : (1 : Nat) ≠ 0 ∧ ∃ q, Pool.stepAt [loaded [tMov], loaded [tHlt]] 0 = .next q :=
  ⟨by decide, _, rfl⟩

theorem witness_OneCoreChangesNoOther_load : (∃ q, Pool.loadAt [State.reset, loaded [tHlt]] 0 [tMov] = .loaded q) ∧
    ∃ q, Pool.loadAt [created tiny, loaded [tHlt]] 0 [tHlt, tHlt, tHlt, tHlt, tHlt] = .programTooLarge q :=
  ⟨⟨_, rfl⟩, _, rfl⟩

theorem witness_CoresStepIndependently : (0 : Nat) ≠ 1 ∧ ∃ q r, Pool.stepAt [loaded [tMov], loaded [tHlt]] 0 = .next q ∧ Pool.stepAt q 1 = .next r :=
  ⟨by decide, _, _, rfl, rfl⟩

theorem witness_APoolActsAsItsCores : ([] : Pool)[0]? = none ∧ ([loaded [tMov]] : Pool)[0]? = some (loaded [tMov]) ∧ (loaded [tMov]).running = true ∧
    ([created tiny] : Pool)[0]? = some (created tiny) ∧ (created tiny).running = false ∧ (created tiny).cfg.cap < [tHlt, tHlt, tHlt, tHlt, tHlt].length ∧
    [tHlt, tHlt, tHlt, tHlt].length ≤ (created tiny).cfg.cap ∧ ∀ t ∈ [tHlt, tHlt, tHlt, tHlt], (created tiny).cfg.fits t = true :=
  by decide

end Sys2Proof.Tests
end

section
/-! The Cores of a pool share nothing (spec R46): what `ProgramTooLarge` leaves of a Core and of its pool, and O56. -/

namespace Sys2Proof.Machine

/-- A load that fails with `ProgramTooLarge` gives back the Core as it was (R65, R101; decision D19). -/
theorem load_programTooLarge {P : List Text} {s t : State} (h : load P s = .programTooLarge t) : t = s := by
  simp only [load] at h
  split at h
  · cases h
  · split at h
    · cases h; rfl
    · split at h <;> cases h

/-- A load into Core `k` that fails with `ProgramTooLarge` gives back the pool: it puts Core `k` back where it stood. -/
theorem Pool.eq_of_loadAt_programTooLarge {p q : Pool} {k : Nat} {P : List Text}
    (h : p.loadAt k P = .programTooLarge q) : q = p := by
  obtain ⟨s, t, hs, ht, rfl⟩ := Pool.loadAt_programTooLarge h
  obtain ⟨hk, rfl⟩ := List.getElem?_eq_some_iff.mp hs
  rw [load_programTooLarge ht]
  exact List.set_getElem_self hk

/-- Settles O56: a step of Core `k` and a load into it each set entry `k` of the pool alone, and `ProgramTooLarge` sets that
entry to what it was. -/
theorem oneCoreChangesNoOther : Obligations.OneCoreChangesNoOther := by
  intro p q j k P hjk
  refine ⟨fun h => ?step, fun h => ?load, Pool.eq_of_loadAt_programTooLarge⟩
  case step =>
    obtain ⟨_, _, _, _, rfl⟩ := Pool.stepAt_next h
    exact List.getElem?_set_ne hjk.symm
  case load =>
    obtain ⟨_, _, _, _, rfl⟩ := Pool.loadAt_loaded h
    exact List.getElem?_set_ne hjk.symm

end Sys2Proof.Machine
end

section
/-! Operand tokens (spec R54): when an address operand is accepted, and O8. -/

namespace Sys2Proof.Machine

/-- R54 for an accepted token: its literal is the address itself, neither clamped nor reduced, and the address is a cell's. -/
theorem addrOperand_ok_iff {cfg : Config} {t : Text} {a : Nat} :
    addrOperand cfg t = .ok a ↔ literal t = some (a : Int) ∧ a < cfg.cap := by
  constructor
  case mp =>
    intro h
    obtain ⟨hl, hm⟩ := addrOperand_ok h
    exact ⟨hl, (inMemory_iff cfg a).mp hm⟩
  case mpr =>
    rintro ⟨hl, ha⟩
    simp [addrOperand, hl, ha]

/-- Settles O8: the accepted tokens are those of `addrOperand_ok_iff`; none of them is malformed, negative or at least `CAP`,
so a token that is one of these is answered with an error, and every error of an address operand is `InvalidOperand`. -/
theorem addressOperandsAreLiteralsBelowCap : Obligations.AddressOperandsAreLiteralsBelowCap := by
  intro cfg t
  refine ⟨fun a => addrOperand_ok_iff, fun hbad => ?_⟩
  cases h : addrOperand cfg t with
  | error e => exact ⟨e, rfl, addrOperand_error h⟩
  | ok a =>
    obtain ⟨hl, ha⟩ := addrOperand_ok_iff.mp h
    obtain hnone | ⟨v, hv, hout⟩ := hbad
    · simp [hl] at hnone
    · have hva : (a : Int) = v := Option.some.inj (hl.symm.trans hv)
      omega

end Sys2Proof.Machine
end

section
/-! MOV (spec R77): the step that fetches a mnemonic with valid and with bad operand tokens, and O13. -/

namespace Sys2Proof.Machine

/-- R58 steps 4 and 5: whatever is wrong with the operand tokens of a mnemonic raises `InvalidOperand`. -/
theorem parseOperands_error {cfg : Config} {o : Opcode} {ops : List Text} {e : DecodeError}
    (h : parseOperands cfg o ops = .error e) : causeOf e = .invalidOperand := by
  cases parseOperands_cases cfg o ops with
  | count _ hr => cases h.symm.trans hr; rfl
  | bad _ _ _ he hr => cases h.symm.trans hr; exact he
  | good _ _ _ _ hr => cases h.symm.trans hr

/-- A fetched mnemonic whose operand tokens are valid executes the instruction they give, on the advanced state. -/
theorem step_of_operands_ok {s : State} {t : Text} {o : Opcode} {ops : List Text} {i : Instr} (hf : s.fetches t)
    (ht : tokens s.cfg.ws t = o.bytes :: ops) (h : parseOperands s.cfg o ops = .ok i) : step s = exec i s.advance := by
  rw [step_of_tokens hf ht, h]

/-- A fetched mnemonic whose operand tokens are bad enters `InvalidOperand` and does nothing else (R99, R104). -/
theorem step_of_operands_error {s : State} {t : Text} {o : Opcode} {ops : List Text} {e : DecodeError}
    (hf : s.fetches t) (ht : tokens s.cfg.ws t = o.bytes :: ops) (h : parseOperands s.cfg o ops = .error e) :
    step s = .next (s.advance.enterFault .invalidOperand) := by
  rw [step_of_tokens hf ht, h, ← parseOperands_error h]

/-- R77: MOV of a `Value` writes it to the register. -/
theorem exec_mov {d : Reg} {imm : Int} {s : State} (h : s.cfg.inValue imm = true) :
    exec (.mov d imm) s = .next (s.setReg d imm) := by
  have hw : (Instr.mov d imm).wellFormed s.cfg = true := h
  rw [exec_eq_finish, resolve_of_wellFormed s.x s.mem hw]
  rfl

/-- Settles O13: by the number of operand tokens and, when there are two, by which of them is valid. A valid immediate is a
`Value`, so `exec_mov` gives the effect; every other case is an error of `parseOperands`. -/
theorem movWritesTheImmediate : Obligations.MovWritesTheImmediate := by
  intro s
  refine ⟨fun d imm => exec_mov, fun t ops hf ht => ?_⟩
  have ht : tokens s.cfg.ws t = Opcode.mov.bytes :: ops := ht
  match ops with
  | [] | [_] | _ :: _ :: _ :: _ => exact step_of_operands_error hf ht rfl
  | [t1, t2] =>
    cases h1 : regOperand t1 with
    | error e =>
      have hp : parseOperands s.cfg .mov [t1, t2] = .error e := by simp [parseOperands, operandsRI, h1, Except.bind]
      simpa [h1] using step_of_operands_error hf ht hp
    | ok d =>
      cases h2 : immOperand s.cfg t2 with
      | error e =>
        have hp : parseOperands s.cfg .mov [t1, t2] = .error e := by
          simp [parseOperands, operandsRI, h1, h2, Except.bind, Except.map]
        simpa [h1, h2] using step_of_operands_error hf ht hp
      | ok imm =>
        have hp : parseOperands s.cfg .mov [t1, t2] = .ok (.mov d imm) := by
          simp [parseOperands, operandsRI, h1, h2, Except.bind, Except.map]
        have himm : s.advance.cfg.inValue imm = true := (immOperand_ok h2).2
        simpa [h1, h2] using (step_of_operands_ok hf ht hp).trans (exec_mov himm)

end Sys2Proof.Machine
end

section
/-! ADD and SUB (spec R79, R80): the step that fetches a mnemonic of two registers, and O14 and O15. -/

namespace Sys2Proof.Machine

/-- What R79 and R80 answer for the operand tokens of a text fetched at `s`: `effect` of the two registers that the tokens
name, or `InvalidOperand` when they are not two registers. -/
def registerPairAnswer (s : State) (effect : Reg → Reg → State) : List Text → Host.Outcome State Fault Refusal
  | [t1, t2] =>
    match regOperand t1, regOperand t2 with
    | .ok d, .ok r => .next (effect d r)
    | _, _ => .next (s.advance.enterFault .invalidOperand)
  | _ => .next (s.advance.enterFault .invalidOperand)

/-- R55, R58 for a mnemonic of format RR: the step that fetches it executes the instruction its two registers give; a wrong
number of tokens and a token that is no register raise `InvalidOperand`. -/
theorem step_of_registerPair {s : State} {t : Text} {o : Opcode} {ops : List Text} {mk : Reg → Reg → Instr}
    {effect : Reg → Reg → State} (hf : s.fetches t) (ht : tokens s.cfg.ws t = o.bytes :: ops)
    (ho : ∀ ts, parseOperands s.cfg o ts = operandsRR mk ts)
    (he : ∀ d r, exec (mk d r) s.advance = .next (effect d r)) :
    step s = registerPairAnswer s effect ops := by
  match ops with
  | [] | [_] | _ :: _ :: _ :: _ => exact step_of_operands_error hf ht (ho _)
  | [t1, t2] =>
    cases h1 : regOperand t1 with
    | error e =>
      have hp : parseOperands s.cfg o [t1, t2] = .error e := by simp [ho, operandsRR, h1, Except.bind]
      simpa [registerPairAnswer, h1] using step_of_operands_error hf ht hp
    | ok d =>
      cases h2 : regOperand t2 with
      | error e =>
        have hp : parseOperands s.cfg o [t1, t2] = .error e := by
          simp [ho, operandsRR, h1, h2, Except.bind, Except.map]
        simpa [registerPairAnswer, h1, h2] using step_of_operands_error hf ht hp
      | ok r =>
        have hp : parseOperands s.cfg o [t1, t2] = .ok (mk d r) := by
          simp [ho, operandsRR, h1, h2, Except.bind, Except.map]
        simpa [registerPairAnswer, h1, h2] using (step_of_operands_ok hf ht hp).trans (he d r)

/-- R79: both registers are read from the state before the write. -/
theorem exec_add (d r : Reg) (s : State) :
    exec (.add d r) s = .next (s.setReg d (wrap s.cfg (s.x.get d + s.x.get r))) := rfl

/-- R80: both registers are read from the state before the write. -/
theorem exec_sub (d r : Reg) (s : State) :
    exec (.sub d r) s = .next (s.setReg d (wrap s.cfg (s.x.get d - s.x.get r))) := rfl

/-- Settles O14: `exec_add` is the meaning, and `step_of_registerPair` carries it to the step, where `fetch` has changed no
register and no parameter. -/
theorem addWritesTheWrappedSum : Obligations.AddWritesTheWrappedSum := fun s =>
  ⟨fun d r => exec_add d r s, fun _ _ hf ht =>
    step_of_registerPair (o := .add) hf ht (fun _ => rfl) fun d r => exec_add d r s.advance⟩

/-- Settles O15: `exec_sub` is the meaning, and `step_of_registerPair` carries it to the step, where `fetch` has changed no
register and no parameter. -/
theorem subWritesTheWrappedDifference : Obligations.SubWritesTheWrappedDifference := fun s =>
  ⟨fun d r => exec_sub d r s, fun _ _ hf ht =>
    step_of_registerPair (o := .sub) hf ht (fun _ => rfl) fun d r => exec_sub d r s.advance⟩

end Sys2Proof.Machine
end

section
/-! LOAD and STORE (spec R84, R85): the step that fetches a mnemonic of a register and an address, and O16 and O17. -/

namespace Sys2Proof.Machine

/-- What the rules of format RA answer for the operand tokens of a text fetched at `s`: `answer` for the register and the
address that the tokens name, or `InvalidOperand` when they are not a register and an address. -/
def registerAddressAnswer (s : State) (answer : Reg → Nat → Host.Outcome State Fault Refusal) :
    List Text → Host.Outcome State Fault Refusal
  | [t1, t2] =>
    match regOperand t1, addrOperand s.cfg t2 with
    | .ok r, .ok a => answer r a
    | _, _ => .next (s.advance.enterFault .invalidOperand)
  | _ => .next (s.advance.enterFault .invalidOperand)

/-- R55, R58 for a mnemonic of format RA: the step that fetches it executes the instruction its register and its address, a
cell's, give; a wrong number of tokens and a token not valid for its kind raise `InvalidOperand`. -/
theorem step_of_registerAddress {s : State} {t : Text} {o : Opcode} {ops : List Text} {mk : Reg → Nat → Instr}
    {answer : Reg → Nat → Host.Outcome State Fault Refusal} (hf : s.fetches t)
    (ht : tokens s.cfg.ws t = o.bytes :: ops) (ho : ∀ ts, parseOperands s.cfg o ts = operandsRA s.cfg mk ts)
    (he : ∀ r a, a < s.cfg.cap → exec (mk r a) s.advance = answer r a) :
    step s = registerAddressAnswer s answer ops := by
  match ops with
  | [] | [_] | _ :: _ :: _ :: _ => exact step_of_operands_error hf ht (ho _)
  | [t1, t2] =>
    cases h1 : regOperand t1 with
    | error e =>
      have hp : parseOperands s.cfg o [t1, t2] = .error e := by simp [ho, operandsRA, h1, Except.bind]
      simpa [registerAddressAnswer, h1] using step_of_operands_error hf ht hp
    | ok r =>
      cases h2 : addrOperand s.cfg t2 with
      | error e =>
        have hp : parseOperands s.cfg o [t1, t2] = .error e := by
          simp [ho, operandsRA, h1, h2, Except.bind, Except.map]
        simpa [registerAddressAnswer, h1, h2] using step_of_operands_error hf ht hp
      | ok a =>
        have hp : parseOperands s.cfg o [t1, t2] = .ok (mk r a) := by
          simp [ho, operandsRA, h1, h2, Except.bind, Except.map]
        have ha : a < s.cfg.cap := (addrOperand_ok_iff.mp h2).2
        simpa [registerAddressAnswer, h1, h2] using (step_of_operands_ok hf ht hp).trans (he r a ha)

/-- LOAD of a cell of memory ends with what `MemRead` of the cell gives (R84, R33). -/
theorem exec_load {d : Reg} {a : Nat} {s : State} (ha : a < s.cfg.cap) :
    exec (.load d a) s = finish ((memRead s.mem a).map (.setReg d)) s := by
  have hw : (Instr.load d a).wellFormed s.cfg = true := (inMemory_iff s.cfg a).mpr ha
  rw [exec_eq_finish, resolve_of_wellFormed s.x s.mem hw]

/-- R84: LOAD of an integer cell moves the whole integer to the register. -/
theorem exec_load_int {d : Reg} {a : Nat} {v : Int} {s : State} (ha : a < s.cfg.cap) (hc : s.cell a = .int v) :
    exec (.load d a) s = .next (s.setReg d v) := by
  rw [exec_load ha, memRead_int hc]
  rfl

/-- R84 (decision D5): LOAD of an instruction cell raises `InvalidOperand`. -/
theorem exec_load_instr {d : Reg} {a : Nat} {u : Text} {s : State} (ha : a < s.cfg.cap) (hc : s.cell a = .instr u) :
    exec (.load d a) s = .next (s.enterFault .invalidOperand) := by
  rw [exec_load ha, memRead_instr hc]
  rfl

/-- What R84 answers for LOAD of cell `a` into register `d` at `s`, by the kind of the cell. -/
def loadAnswer (s : State) (d : Reg) (a : Nat) : Host.Outcome State Fault Refusal :=
  match s.cell a with
  | .int v => .next (s.setReg d v)
  | .instr _ => .next (s.enterFault .invalidOperand)

/-- LOAD of a cell of memory, whatever the cell holds (R84). -/
theorem exec_load_eq_loadAnswer {d : Reg} {a : Nat} {s : State} (ha : a < s.cfg.cap) :
    exec (.load d a) s = loadAnswer s d a := by
  cases hc : s.cell a with
  | int v => simpa [loadAnswer, hc] using exec_load_int ha hc
  | instr u => simpa [loadAnswer, hc] using exec_load_instr ha hc

/-- R85: STORE to a cell of memory makes it the integer of the register, whatever it held. -/
theorem exec_store {r : Reg} {a : Nat} {s : State} (ha : a < s.cfg.cap) :
    exec (.store r a) s = .next (s.setCell a (.int (s.x.get r))) := by
  have hw : (Instr.store r a).wellFormed s.cfg = true := (inMemory_iff s.cfg a).mpr ha
  rw [exec_eq_finish, resolve_of_wellFormed s.x s.mem hw]
  rfl

/-- Settles O16: `exec_load_int` and `exec_load_instr` are the meaning for the two kinds of cell, and
`step_of_registerAddress` carries it to the step, where `fetch` has changed no cell. -/
theorem loadReadsAnIntegerCell : Obligations.LoadReadsAnIntegerCell := fun s =>
  ⟨fun _ _ _ => exec_load_int, fun _ _ _ => exec_load_instr, fun _ _ hf ht =>
    step_of_registerAddress (o := .load) (answer := loadAnswer s.advance) hf ht (fun _ => rfl)
      fun _ _ => exec_load_eq_loadAnswer (s := s.advance)⟩

/-- Settles O17: `exec_store` is the meaning, and `step_of_registerAddress` carries it to the step, where `fetch` has changed
no register. -/
theorem storeWritesTheRegisterToTheCell : Obligations.StoreWritesTheRegisterToTheCell := fun s =>
  ⟨fun _ _ => exec_store, fun _ _ hf ht =>
    step_of_registerAddress (o := .store) hf ht (fun _ => rfl) fun _ _ => exec_store (s := s.advance)⟩

end Sys2Proof.Machine
end

section
/-! JMP, JZ and JNZ (spec R88 to R90): the step that fetches a mnemonic of an address alone, and O18, O19 and O20. -/

namespace Sys2Proof.Machine

/-- What R88 answers for the operand tokens of a text fetched at `s`: `effect` of the address that the one token names, or
`InvalidOperand` when the tokens are not one address. -/
def addressAnswer (s : State) (effect : Nat → State) : List Text → Host.Outcome State Fault Refusal
  | [t1] =>
    match addrOperand s.cfg t1 with
    | .ok a => .next (effect a)
    | .error _ => .next (s.advance.enterFault .invalidOperand)
  | _ => .next (s.advance.enterFault .invalidOperand)

/-- R55, R58 for a mnemonic of format A: the step that fetches it executes the instruction its address, a cell's, gives; a
wrong number of tokens and a token that is no address raise `InvalidOperand`. -/
theorem step_of_address {s : State} {t : Text} {o : Opcode} {ops : List Text} {mk : Nat → Instr} {effect : Nat → State}
    (hf : s.fetches t) (ht : tokens s.cfg.ws t = o.bytes :: ops)
    (ho : ∀ ts, parseOperands s.cfg o ts = operandsA s.cfg mk ts)
    (he : ∀ a, a < s.cfg.cap → exec (mk a) s.advance = .next (effect a)) :
    step s = addressAnswer s effect ops := by
  match ops with
  | [] | _ :: _ :: _ => exact step_of_operands_error hf ht (ho _)
  | [t1] =>
    cases h1 : addrOperand s.cfg t1 with
    | error e =>
      have hp : parseOperands s.cfg o [t1] = .error e := by simp [ho, operandsA, h1, Except.map]
      simpa [addressAnswer, h1] using step_of_operands_error hf ht hp
    | ok a =>
      have hp : parseOperands s.cfg o [t1] = .ok (mk a) := by simp [ho, operandsA, h1, Except.map]
      have ha : a < s.cfg.cap := (addrOperand_ok_iff.mp h1).2
      simpa [addressAnswer, h1] using (step_of_operands_ok hf ht hp).trans (he a ha)

/-- R88: JMP to a cell of memory sets `pc` to it. -/
theorem exec_jmp {a : Nat} {s : State} (ha : a < s.cfg.cap) : exec (.jmp a) s = .next (s.setPc a) := by
  have hw : (Instr.jmp a).wellFormed s.cfg = true := (inMemory_iff s.cfg a).mpr ha
  rw [exec_eq_finish, resolve_of_wellFormed s.x s.mem hw]
  rfl

/-- The end of a conditional jump: taken, it sets `pc`; not taken, it is `NoChange` (R89, R90). -/
theorem finish_setPC_if (p : Prop) [Decidable p] (a : Nat) (s : State) :
    finish (.ok (if p then .setPC a else .noChange)) s = .next (if p then s.setPc a else s) := by
  by_cases hp : p
  · simp only [if_pos hp]; rfl
  · simp only [if_neg hp]; rfl

/-- R89: JZ to a cell of memory sets `pc` to it when the register is zero, and otherwise changes nothing. -/
theorem exec_jz {r : Reg} {a : Nat} {s : State} (ha : a < s.cfg.cap) :
    exec (.jz r a) s = .next (if s.x.get r = 0 then s.setPc a else s) := by
  have hw : (Instr.jz r a).wellFormed s.cfg = true := (inMemory_iff s.cfg a).mpr ha
  rw [exec_eq_finish, resolve_of_wellFormed s.x s.mem hw]
  exact finish_setPC_if (s.x.get r = 0) a s

/-- R90: JNZ to a cell of memory sets `pc` to it when the register is not zero, and otherwise changes nothing. -/
theorem exec_jnz {r : Reg} {a : Nat} {s : State} (ha : a < s.cfg.cap) :
    exec (.jnz r a) s = .next (if s.x.get r ≠ 0 then s.setPc a else s) := by
  have hw : (Instr.jnz r a).wellFormed s.cfg = true := (inMemory_iff s.cfg a).mpr ha
  rw [exec_eq_finish, resolve_of_wellFormed s.x s.mem hw]
  simpa using finish_setPC_if (s.x.get r ≠ 0) a s

/-- Settles O18: `exec_jmp` is the meaning, and `step_of_address` carries it to the step, which jumps from the advanced
state. -/
theorem jmpSetsThePc : Obligations.JmpSetsThePc := fun s =>
  ⟨fun _ => exec_jmp, fun _ _ hf ht =>
    step_of_address (o := .jmp) hf ht (fun _ => rfl) fun _ => exec_jmp (s := s.advance)⟩

/-- Settles O19: `exec_jz` is the meaning, and `step_of_registerAddress` carries it to the step, where `fetch` has changed no
register; it checks the address before the register is tested. -/
theorem jzJumpsOnZero : Obligations.JzJumpsOnZero := fun s =>
  ⟨fun _ _ => exec_jz, fun _ _ hf ht =>
    step_of_registerAddress (o := .jz) hf ht (fun _ => rfl) fun _ _ => exec_jz (s := s.advance)⟩

/-- Settles O20: `exec_jnz` is the meaning, and `step_of_registerAddress` carries it to the step, where `fetch` has changed no
register; it checks the address before the register is tested. -/
theorem jnzJumpsOnNonzero : Obligations.JnzJumpsOnNonzero := fun s =>
  ⟨fun _ _ => exec_jnz, fun _ _ hf ht =>
    step_of_registerAddress (o := .jnz) hf ht (fun _ => rfl) fun _ _ => exec_jnz (s := s.advance)⟩

end Sys2Proof.Machine
end

section
/-! HLT (spec R94): the step that fetches a mnemonic without operands, and O21. -/

namespace Sys2Proof.Machine

/-- What R94 answers for the operand tokens of a text fetched at `s`: `next` when there is none, or `InvalidOperand`. -/
def noOperandAnswer (s next : State) : List Text → Host.Outcome State Fault Refusal
  | [] => .next next
  | _ => .next (s.advance.enterFault .invalidOperand)

/-- R55, R58 for a mnemonic of format Z: the step that fetches it alone executes its instruction; any token after it raises
`InvalidOperand`. -/
theorem step_of_noOperand {s next : State} {t : Text} {o : Opcode} {ops : List Text} {i : Instr} (hf : s.fetches t)
    (ht : tokens s.cfg.ws t = o.bytes :: ops) (ho : ∀ ts, parseOperands s.cfg o ts = operandsZ i ts)
    (he : exec i s.advance = .next next) : step s = noOperandAnswer s next ops := by
  match ops with
  | [] => exact (step_of_operands_ok hf ht (ho _)).trans he
  | _ :: _ => exact step_of_operands_error hf ht (ho _)

/-- R94: HLT clears `running` and leaves the rest, `fault` included. -/
theorem exec_hlt (s : State) : exec .hlt s = .next s.halt := rfl

/-- Settles O21: `exec_hlt` is the meaning, and `step_of_noOperand` carries it to the step, which halts the advanced
state. -/
theorem hltStopsTheCoreNormally : Obligations.HltStopsTheCoreNormally := fun s =>
  ⟨exec_hlt s, fun _ _ hf ht => step_of_noOperand (o := .hlt) hf ht (fun _ => rfl) (exec_hlt s.advance)⟩

end Sys2Proof.Machine
end

section
/-! Fault entry (spec R67, R69, R104): a text's execution is the end of the pure decoder's answer, and O38. -/

namespace Sys2Proof.Machine

/-- R57, R67: executing a text ends with what the pure decoder answers for it, its mutation or the fault it raises. -/
theorem decodeExecute_instr (txt : Text) (s : State) :
    decodeExecute (.instr txt) s = finish (decoder s.cfg s.x s.mem txt) s := by
  cases hp : parse s.cfg txt with
  | error e =>
    rw [decodeExecute_error hp]
    simp [decoder, hp, finish]
  | ok i =>
    rw [decodeExecute_ok hp, exec_eq_finish]
    simp [decoder, hp]

/-- R69, R104: a text for which the decoder raises a fault enters that fault, at the state it was executed on. -/
theorem decodeExecute_instr_error {txt : Text} {s : State} {f : Cause} (h : decoder s.cfg s.x s.mem txt = .error f) :
    decodeExecute (.instr txt) s = .next (s.enterFault f) := by
  rw [decodeExecute_instr, h]
  rfl

/-- An end that changes `fault` is fault entry: no mutation writes `fault` (R68). -/
theorem finish_fault_ne {r : Except Cause Mutation} {s t : State} (h : finish r s = .next t) (hf : t.fault ≠ s.fault) :
    ∃ f, r = .error f ∧ t = s.enterFault f := by
  cases r with
  | ok m =>
    cases h
    exact absurd (applyMutation_fault s m) hf
  | error f =>
    cases h
    exact ⟨f, rfl, rfl⟩

/-- R66, R104: a fault that `fetch` raises on a running Core is entered with `pc` not advanced. -/
theorem step_of_fetch_error {s : State} {f : Cause} (hr : s.running = true) (h : fetch s = .error f) :
    step s = .next (s.enterFault f) := by
  simp [step, cycle, hr, h]

/-- Settles O38: by the kind of cell, and for a text by what the decoder answers; `finish_fault_ne` excludes a change of
`fault` by a mutation. -/
theorem faultEntryHaltsAndRecordsTheCause : Obligations.FaultEntryHaltsAndRecordsTheCause := by
  refine ⟨decodeExecute_int, fun _ _ _ => decodeExecute_instr_error, fun c s t h hf => ?_, fun _ _ => step_of_fetch_error⟩
  cases c with
  | int v =>
    cases h
    exact ⟨.invalidOpcode, rfl, .inl ⟨v, rfl, rfl⟩⟩
  | instr txt =>
    rw [decodeExecute_instr] at h
    obtain ⟨f, hd, rfl⟩ := finish_fault_ne h hf
    exact ⟨f, rfl, .inr ⟨txt, rfl, hd⟩⟩

end Sys2Proof.Machine
end

section
/-! A fault is terminal until the next load (spec R65, R70, R106): what an idle Core does, what a load makes, and O55. -/

namespace Sys2Proof.Machine

/-- R106: a Core of the invariant with a fault recorded is idle. -/
theorem State.Inv.idle_of_fault {s : State} (hs : s.Inv) (hf : s.fault ≠ none) : s.running = false := by
  cases hr : s.running with
  | false => rfl
  | true => exact absurd (hs.no_fault hr) hf

/-- R71 (decision D26): `run` on an idle Core is over at once, for every fuel. -/
theorem run_idle {s : State} (h : s.running = false) (n : Nat) : run n s = some s := by
  cases n <;> simp [run, h]

/-- The registers `load` and reset make all read zero (R65). -/
theorem Regs.get_zero (r : Reg) : Regs.get { r0 := 0, r1 := 0, r2 := 0, r3 := 0 } r = 0 := by
  match r with
  | 0 | 1 | 2 | 3 => rfl

/-- Beyond the program, the memory `load` makes reads `Int(0)` (R65). -/
theorem Memory.read_ofProgram_of_length_le {P : List Text} {a : Nat} (h : P.length ≤ a) :
    Memory.read (Memory.ofProgram 0 P) a = .int 0 := by
  have hout : ¬ (0 ≤ a ∧ a < 0 + P.length) := by omega
  rw [Memory.read_ofProgram, dif_neg hout]
  rfl

/-- Settles O55: under the invariant a faulted Core is idle, so it has no step and its run is over; a load that loads builds
its state anew, and nothing of it depends on the fault. -/
theorem faultsAreTerminalUntilTheNextLoad : Obligations.FaultsAreTerminalUntilTheNextLoad := by
  intro s hs hf
  have hidle : s.running = false := hs.idle_of_fault hf
  refine ⟨step_idle hidle, run_idle hidle, fun P t hload => ?_⟩
  obtain ⟨-, -, -, rfl⟩ := load_loaded hload
  exact ⟨rfl, rfl, rfl, Regs.get_zero, fun _ => Memory.read_ofProgram_of_length_le⟩

end Sys2Proof.Machine
end

section
/-! The canonical spelling decodes to its instruction (spec R62, R58): O11, and O12 by it. -/

namespace Sys2Proof.Machine

/-- R58 steps 4 to 6 read the canonical operand tokens of a well-formed instruction back, format by format. -/
theorem parseOperands_operandTokens {cfg : Config} {i : Instr} (h : i.wellFormed cfg = true) :
    parseOperands cfg i.opcode i.operandTokens = .ok i := by
  cases i with
  | mov d imm =>
    simp [Instr.opcode, Instr.operandTokens, parseOperands, operandsRI, regOperand_regToken, immOperand_literalToken h,
      Except.bind, Except.map]
  | add d r | sub d r =>
    simp [Instr.opcode, Instr.operandTokens, parseOperands, operandsRR, regOperand_regToken, Except.bind, Except.map]
  | load r a | store r a | jz r a | jnz r a =>
    simp [Instr.opcode, Instr.operandTokens, parseOperands, operandsRA, regOperand_regToken, addrOperand_decimal h,
      Except.bind, Except.map]
  | jmp a => simp [Instr.opcode, Instr.operandTokens, parseOperands, operandsA, addrOperand_decimal h, Except.map]
  | hlt => rfl

/-- Settles O11: the tokens of the canonical spelling are the mnemonic and the operand tokens (`tokens_encode`), and
`parseOperands_operandTokens` reads these back. -/
theorem encodedInstructionsDecodeToThemselves : Obligations.EncodedInstructionsDecodeToThemselves := fun _ i hws hi =>
  (parse_of_tokens (tokens_encode hws i)).trans (parseOperands_operandTokens hi)

/-- Under the default parameters a text that is the canonical spelling of a well-formed instruction decodes to it. -/
theorem parse_default_of_eq_encode {t : Text} {i : Instr} (ht : t = encode i)
    (hi : i.wellFormed Config.default = true) : parse Config.default t = .ok i :=
  ht ▸ encodedInstructionsDecodeToThemselves Config.default i (by decide) hi

/-- Settles O12: each of the ten texts is the canonical spelling of its instruction. -/
theorem spelledTextsDecode : Obligations.SpelledTextsDecode := by
  refine ⟨?_, ?_, ?_, ?_, ?_, ?_, ?_, ?_, ?_, ?_⟩ <;> exact parse_default_of_eq_encode (by decide) (by decide)

end Sys2Proof.Machine
end

section
/-! How a step ends (spec R66, R67, R69): the cases of `step_cases`, with the faults of a fetched cell taken together. -/

namespace Sys2Proof.Machine

/-- R58: no text raises `EndOfMemory`. -/
theorem causeOf_ne_endOfMemory (e : DecodeError) : causeOf e ≠ .endOfMemory := by
  cases e <;> decide

/-- How a step that answers a next state ended. -/
inductive StepEnd (s t : State) : Prop where
  /-- `fetch` found no cell, and `pc` stays. -/
  | endOfMemory (hpc : s.cfg.cap ≤ s.pc) (ht : t = s.enterFault .endOfMemory)
  /-- The fetched cell raised a fault, with `pc` advanced. -/
  | faulted (hpc : s.pc < s.cfg.cap) (c : Cause) (hne : c ≠ .endOfMemory) (ht : t = s.advance.enterFault c)
  /-- The fetched instruction completed. -/
  | completed (hpc : s.pc < s.cfg.cap) (txt : Text) (i : Instr) (m : Mutation) (hc : s.cell s.pc = .instr txt)
      (hp : parse s.cfg txt = .ok i) (hr : resolve s.cfg s.x s.mem i = .ok m)
      (ht : t = applyMutation s.advance m)

/-- A step is one of a running Core and has one of the three ends. -/
theorem step_ends {s t : State} (h : step s = .next t) : s.running = true ∧ StepEnd s t := by
  obtain ⟨hrun, hcase⟩ := step_cases h
  refine ⟨hrun, ?_⟩
  cases hcase with
  | endOfMemory hpc ht => exact .endOfMemory hpc ht
  | integer hpc _ _ ht => exact .faulted hpc _ (by decide) ht
  | illegal hpc _ e _ _ ht => exact .faulted hpc _ (causeOf_ne_endOfMemory e) ht
  | raised hpc _ _ _ _ _ ht => exact .faulted hpc _ (by decide) ht
  | completed hpc txt i m hc hp hr ht => exact .completed hpc txt i m hc hp hr ht

end Sys2Proof.Machine
end

section
/-! The invariant (spec R7, R16, R18, R25, R30): what each operation of the state needs to keep it; O46, and O45, O48 and O53. -/

namespace Sys2Proof.Machine

/-- What keeps a mutation inside the types of the state: a `Value` for a register or a cell, the index of a cell for an
address. -/
def Mutation.InRange (cfg : Config) : Mutation → Prop
  | .setReg _ v => cfg.inValue v = true
  | .setMem a v => a < cfg.cap ∧ cfg.inValue v = true
  | .setPC a => a < cfg.cap
  | .halt => True
  | .noChange => True

theorem State.Inv.advance {s : State} (h : s.Inv) (hpc : s.pc < s.cfg.cap) : s.advance.Inv :=
  { h with pc_le := hpc }

theorem State.Inv.enterFault {s : State} (h : s.Inv) (c : Cause) : (s.enterFault c).Inv :=
  { h with no_fault := fun hr => nomatch hr }

theorem State.Inv.halt {s : State} (h : s.Inv) : s.halt.Inv :=
  { h with no_fault := fun hr => nomatch hr }

theorem State.Inv.setPc {s : State} (h : s.Inv) {a : Nat} (ha : a < s.cfg.cap) : (s.setPc a).Inv :=
  { h with pc_le := Nat.le_of_lt ha }

theorem State.Inv.setReg {s : State} (h : s.Inv) (d : Reg) {v : Int} (hv : s.cfg.inValue v = true) :
    (s.setReg d v).Inv where
  __ := h
  regs_inValue r := by
    by_cases hr : r = d
    · simpa [Regs.get_set, hr] using hv
    · simpa [Regs.get_set, hr] using h.regs_inValue r

theorem State.Inv.setCell {s : State} (h : s.Inv) {a : Nat} {c : Cell} (ha : a < s.cfg.cap)
    (hc : cellFits s.cfg c = true) : (s.setCell a c).Inv where
  __ := h
  mem_wf := Memory.wf_write h.mem_wf a c
  mem_lt p hp := by
    obtain rfl | hp := Memory.mem_write hp
    · exact ha
    · exact h.mem_lt p hp
  mem_fits p hp := by
    obtain rfl | hp := Memory.mem_write hp
    · exact hc
    · exact h.mem_fits p hp

/-- Under the invariant every integer cell reads as a `Value`, an unlisted one as zero (R30). -/
theorem State.Inv.inValue_of_read {s : State} (h : s.Inv) {a : Nat} {v : Int} (hc : Memory.read s.mem a = .int v) :
    s.cfg.inValue v = true := by
  by_cases hv : Cell.int v = Memory.unlisted
  · cases hv
    exact inValue_zero s.cfg
  · exact h.mem_fits _ (Memory.mem_of_read hc hv)

/-- Under the invariant the decoder yields mutations in range only. -/
theorem State.Inv.inRange_of_resolve {s : State} (h : s.Inv) {i : Instr} {m : Mutation}
    (hr : resolve s.cfg s.x s.mem i = .ok m) : m.InRange s.cfg := by
  obtain ⟨d, v, rfl, hv⟩ | ⟨r, a, -, ha, rfl⟩ | ⟨a, -, ha, rfl | rfl⟩ | ⟨-, rfl⟩ := resolve_ok_cases hr
  · obtain ⟨-, hv⟩ | ⟨r, -, rfl⟩ | ⟨r, -, rfl⟩ | ⟨a, -, -, hc⟩ := hv
    · exact hv
    · exact wrap_inValue h.cfg_wf _
    · exact wrap_inValue h.cfg_wf _
    · exact h.inValue_of_read hc
  · exact ⟨ha, h.regs_inValue r⟩
  · exact ha
  · trivial
  · trivial

/-- A mutation in range keeps the invariant. -/
theorem State.Inv.applyMutation {s : State} (h : s.Inv) {m : Mutation} (hm : m.InRange s.cfg) :
    (applyMutation s m).Inv := by
  cases m with
  | setReg d v => exact h.setReg d hm
  | setMem a v =>
    obtain ⟨ha, hv⟩ := hm
    exact h.setCell ha hv
  | setPC a => exact h.setPc hm
  | halt => exact h.halt
  | noChange => exact h

/-- Settles O46: by the ends of a step. Fault entry keeps the invariant, and the mutation of an instruction that completed
is in range. -/
theorem everyStepKeepsTheInvariant : Obligations.EveryStepKeepsTheInvariant := by
  intro s t hs hst
  obtain ⟨-, hend⟩ := step_ends hst
  cases hend with
  | endOfMemory _ ht => exact ht ▸ hs.enterFault _
  | faulted hpc c _ ht => exact ht ▸ (hs.advance hpc).enterFault c
  | completed hpc _ _ m _ _ hr ht =>
    have hm : m.InRange s.cfg := hs.inRange_of_resolve hr
    exact ht ▸ (hs.advance hpc).applyMutation hm

/-- Settles O45: the parameters of reset are legal, and everything else is zero or empty. -/
theorem createdCoreMeetsTheInvariant : Obligations.CreatedCoreMeetsTheInvariant where
  cfg_wf := by decide
  pc_le := Nat.zero_le _
  regs_inValue r := (Regs.get_zero r).symm ▸ inValue_zero _
  mem_wf := Memory.wf_reset
  mem_lt := fun _ hp => nomatch hp
  mem_fits := fun _ hp => nomatch hp
  no_fault := fun _ => rfl

/-- Settles O48: a load that loads makes its state anew; the program fits memory and its texts fit their cells. -/
theorem loadedCoreMeetsTheInvariant : Obligations.LoadedCoreMeetsTheInvariant := by
  intro P s t hwf hload
  obtain ⟨-, hlen, hfits, rfl⟩ := load_loaded hload
  exact
    { cfg_wf := hwf
      pc_le := Nat.zero_le _
      regs_inValue := fun r => (Regs.get_zero r).symm ▸ inValue_zero _
      mem_wf := Memory.wf_ofProgram P 0
      mem_lt := fun p hp => by
        obtain ⟨-, hlt, -⟩ := Memory.mem_ofProgram hp
        exact Nat.lt_of_lt_of_le (by simpa using hlt) hlen
      mem_fits := fun p hp => by
        obtain ⟨-, -, txt, htxt, heq⟩ := Memory.mem_ofProgram hp
        simpa [heq, cellFits] using hfits txt htxt
      no_fault := fun _ => rfl }

/-- Settles O53: a load establishes the invariant (O48) and every step of the run keeps it (O46). -/
theorem runsOfLoadedProgramsKeepTheInvariant : Obligations.RunsOfLoadedProgramsKeepTheInvariant :=
  fun P _ s t _ hwf hload hrun =>
    run_induction everyStepKeepsTheInvariant (loadedCoreMeetsTheInvariant P s t hwf hload) hrun

end Sys2Proof.Machine
end

section
/-! Integers (spec R11, R81, R83): `wrap` as the one congruent `Value`; O1, O2 and O3. -/

namespace Sys2Proof.Machine

/-- R11: a `Value` congruent to `v` modulo `2^n` is `wrap(v)`. -/
theorem eq_wrap_of_dvd {cfg : Config} {n : Nat} {u v : Int} (hwf : cfg.wf = true) (hx : cfg.xlen = .bits n)
    (hu : cfg.inValue u = true) (hd : ((2 ^ n : Nat) : Int) ∣ u - v) : u = wrap cfg v := by
  have hn : 2 ≤ n := wf_bits hwf hx
  have hcongr : ((2 ^ n : Nat) : Int) ∣ u - sext n v := by simpa using Int.dvd_sub hd (sext_dvd n v)
  rw [wrap_bits hx]
  exact eq_of_range_of_dvd (by omega) ((inValue_bits hx u).mp hu) (sext_range (by omega) v) hcongr

/-- R11: `zext_N(v)` is the residue of `v` in `0 .. 2^N-1`. -/
theorem zext_spec (n : Nat) (v : Int) :
    0 ≤ zext n v ∧ zext n v < ((2 ^ n : Nat) : Int) ∧ ((2 ^ n : Nat) : Int) ∣ zext n v - v := by
  have hpos : (0 : Int) < ((2 ^ n : Nat) : Int) := by positivity
  refine ⟨Int.emod_nonneg v hpos.ne', Int.emod_lt_of_pos v hpos, ?_⟩
  exact ⟨-(v / ((2 ^ n : Nat) : Int)), by rw [zext, Int.emod_def]; ring⟩

/-- Settles O1: the laws of `sext`, and `eq_wrap_of_dvd` for uniqueness. -/
theorem wrapIsTheOnlyCongruentValue : Obligations.WrapIsTheOnlyCongruentValue := by
  intro cfg v hwf
  refine ⟨fun hx => wrap_inf hx v, fun n hx => ?_, fun n => zext_spec n v⟩
  have hdvd : ((2 ^ n : Nat) : Int) ∣ wrap cfg v - v := wrap_bits hx v ▸ sext_dvd n v
  exact ⟨wrap_bits hx v, wrap_inValue hwf v, hdvd, fun u => eq_wrap_of_dvd hwf hx⟩

/-- R81: reducing a difference before the subtrahend is added back loses nothing of a `Value`. -/
theorem wrap_wrap_sub_add {cfg : Config} {p : Int} (hwf : cfg.wf = true) (hp : cfg.inValue p = true) (q : Int) :
    wrap cfg (wrap cfg (p - q) + q) = p := by
  cases hx : cfg.xlen with
  | inf => simp [wrap_inf hx]
  | bits n =>
    refine (eq_wrap_of_dvd hwf hx hp ?_).symm
    have hdvd : ((2 ^ n : Nat) : Int) ∣ wrap cfg (p - q) - (p - q) := wrap_bits hx _ ▸ sext_dvd n _
    have hneg : p - (wrap cfg (p - q) + q) = -(wrap cfg (p - q) - (p - q)) := by ring
    exact hneg ▸ Int.dvd_neg.mpr hdvd

/-- R83: the reduced difference of two `Value`s is zero exactly when they are equal, overflow or not. -/
theorem wrap_sub_eq_zero_iff {cfg : Config} {p q : Int} (hwf : cfg.wf = true) (hp : cfg.inValue p = true)
    (hq : cfg.inValue q = true) : wrap cfg (p - q) = 0 ↔ p = q := by
  constructor
  case mpr =>
    rintro rfl
    simpa using wrap_of_inValue hwf (inValue_zero cfg)
  case mp =>
    intro h
    cases hx : cfg.xlen with
    | inf => rw [wrap_inf hx] at h; omega
    | bits n =>
      have hn : 2 ≤ n := wf_bits hwf hx
      have hdvd : ((2 ^ n : Nat) : Int) ∣ 0 - (p - q) := by
        rw [← h, wrap_bits hx]
        exact sext_dvd n _
      exact eq_of_range_of_dvd (by omega) ((inValue_bits hx p).mp hp) ((inValue_bits hx q).mp hq)
        (by rwa [zero_sub, Int.dvd_neg] at hdvd)

/-- Writing back what a register held undoes a write to it. -/
theorem State.setReg_setReg_get (s : State) (d : Reg) (v : Int) : (s.setReg d v).setReg d (s.x.get d) = s := by
  have hx : (s.x.set d v).set d (s.x.get d) = s.x := Regs.ext_get fun r => by
    by_cases hr : r = d
    · rw [hr, Regs.get_set_same]
    · rw [Regs.get_set_ne _ _ hr, Regs.get_set_ne _ _ hr]
  simp [State.setReg, hx]

/-- Settles O2: SUB leaves `x[r]`, so ADD adds back what was subtracted (`wrap_wrap_sub_add`). -/
theorem subThenAddRestoresTheRegister : Obligations.SubThenAddRestoresTheRegister := by
  intro s d r hwf hd hne
  refine ⟨_, exec_sub d r s, ?_⟩
  rw [exec_add, State.setReg_cfg, State.setReg_x, Regs.get_set_same, Regs.get_set_ne _ _ hne,
    wrap_wrap_sub_add hwf hd, State.setReg_setReg_get]

/-- Settles O3: JZ reads the register SUB wrote, whose value is zero exactly on equality (`wrap_sub_eq_zero_iff`). -/
theorem subThenJzJumpsExactlyOnEqualRegisters : Obligations.SubThenJzJumpsExactlyOnEqualRegisters := by
  intro s a b addr hwf _ haddr ha hb
  refine ⟨_, exec_sub a b s, (exec_jz (s := s.setReg a _) haddr).trans ?_⟩
  simp only [State.setReg_x, Regs.get_set_same, wrap_sub_eq_zero_iff hwf ha hb]

end Sys2Proof.Machine
end

section
/-! Tokens (spec R48): where separators cut a text, and O4. -/

namespace Sys2Proof.Machine

/-- A run of separators at the front is skipped. -/
theorem tokens_separators {ws : List Byte} {w : Text} (hw : ∀ c ∈ w, c ∈ ws) (t : Text) :
    tokens ws (w ++ t) = tokens ws t := by
  induction w with
  | nil => rfl
  | cons c w ih => rw [List.cons_append, tokens_sep (hw c (by simp)), ih fun b hb => hw b (by simp [hb])]

/-- A separator ends the run a text begins with, or a later run, and the tokens after it come last. -/
theorem leadAndTokens_cut {ws : List Byte} {c : Byte} (hc : c ∈ ws) (a t : Text) :
    leadAndTokens ws (a ++ c :: t) = ((leadAndTokens ws a).1, (leadAndTokens ws a).2 ++ tokens ws t) := by
  induction a with
  | nil => simp [leadAndTokens_sep hc, leadAndTokens]
  | cons b a ih =>
    simp only [List.cons_append, leadAndTokens, ih]
    split
    · split <;> rfl
    · rfl

/-- A separator cuts a text into two texts with tokens of their own. -/
theorem tokens_cut {ws : List Byte} {c : Byte} (hc : c ∈ ws) (a t : Text) :
    tokens ws (a ++ c :: t) = tokens ws a ++ tokens ws t := by
  simp only [tokens, leadAndTokens_cut hc]
  split <;> rfl

/-- The leading run holds no separator, and the tokens after it are nonempty and hold none. -/
theorem leadAndTokens_runs (ws : List Byte) (t : Text) :
    (∀ b ∈ (leadAndTokens ws t).1, b ∉ ws) ∧ ∀ u ∈ (leadAndTokens ws t).2, u ≠ [] ∧ ∀ b ∈ u, b ∉ ws := by
  induction t with
  | nil => simp [leadAndTokens]
  | cons c t ih =>
    obtain ⟨hlead, htokens⟩ := ih
    by_cases hc : c ∈ ws
    · refine ⟨by simp [leadAndTokens, hc], fun u hu => ?_⟩
      by_cases hnil : (leadAndTokens ws t).1 = []
      · exact htokens u (by simpa [leadAndTokens, hc, hnil] using hu)
      · have hu : u = (leadAndTokens ws t).1 ∨ u ∈ (leadAndTokens ws t).2 := by
          simpa [leadAndTokens, hc, hnil] using hu
        obtain rfl | hu := hu
        · exact ⟨hnil, hlead⟩
        · exact htokens u hu
    · simpa [leadAndTokens, hc] using And.intro hlead htokens

/-- Every token is a nonempty run without separators. -/
theorem token_of_mem_tokens {ws : List Byte} {t u : Text} (hu : u ∈ tokens ws t) : u ≠ [] ∧ ∀ b ∈ u, b ∉ ws := by
  obtain ⟨hlead, htokens⟩ := leadAndTokens_runs ws t
  rw [tokens] at hu
  split at hu
  · exact htokens u hu
  · next hnil =>
    obtain rfl | hu := List.mem_cons.mp hu
    · exact ⟨hnil, hlead⟩
    · exact htokens u hu

/-- Settles O4: the first separator of the run cuts the text (`tokens_cut`), and the others are skipped
(`tokens_separators`). -/
theorem tokensAreTheMaximalRuns : Obligations.TokensAreTheMaximalRuns := by
  intro ws
  refine ⟨tokens_nil ws, fun _ _ => token_of_mem_tokens, fun _ hne hu => tokens_run hu hne, fun a w b hne hw => ?_⟩
  cases w with
  | nil => exact absurd rfl hne
  | cons c w =>
    have hw' : ∀ d ∈ w, d ∈ ws := fun d hd => hw d (by simp [hd])
    rw [List.append_assoc, List.cons_append, tokens_cut (hw c (by simp)), tokens_separators hw']

end Sys2Proof.Machine
end

section
/-! Register operands, literals and immediates (spec R51 to R53): which tokens are accepted; O5, O6 and O7. -/

namespace Sys2Proof.Machine

/-- The digits are the ten digit bytes. -/
theorem digitOf_eq_some_iff {b : Byte} {k : Nat} : digitOf b = some k ↔ k < 10 ∧ b = digitByte k := by
  constructor
  case mpr =>
    rintro ⟨hk, rfl⟩
    exact digitOf_digitByte hk
  case mp =>
    intro h
    simp only [digitOf, Option.ite_none_right_eq_some, Option.some.injEq] at h
    obtain ⟨⟨hlo, hhi⟩, rfl⟩ := h
    refine ⟨by omega, BitVec.eq_of_toNat_eq ?_⟩
    rw [digitByte, BitVec.toNat_ofNat]
    omega

/-- R51: a token is `R` and one digit, or it is malformed. -/
theorem regOperand_cases (t : Text) :
    (∃ k, k < 10 ∧ t = [0x52#8, digitByte k]) ∨ regOperand t = .error .malformedRegister := by
  match t with
  | [] | [_] | _ :: _ :: _ :: _ => exact .inr rfl
  | [r, b] =>
    by_cases hr : r = 0x52#8
    · subst hr
      cases hd : digitOf b with
      | none => exact .inr (by simp [regOperand, hd])
      | some k =>
        obtain ⟨hk, rfl⟩ := digitOf_eq_some_iff.mp hd
        exact .inl ⟨k, hk, rfl⟩
    · exact .inr (by simp [regOperand, hr])

/-- R51: `R` and a digit is the register of that index, or out of range. -/
theorem regOperand_digit {k : Nat} (hk : k < 10) :
    regOperand [0x52#8, digitByte k] = if h : k < 4 then .ok ⟨k, h⟩ else .error .registerOutOfRange := by
  simp [regOperand, digitOf_digitByte hk]

theorem regOperand_ok_iff {t : Text} {r : Reg} : regOperand t = .ok r ↔ t = regToken r := by
  constructor
  case mpr =>
    rintro rfl
    exact regOperand_regToken r
  case mp =>
    intro h
    obtain ⟨k, hk, rfl⟩ | herr := regOperand_cases t
    · rw [regOperand_digit hk] at h
      split at h
      · cases h; rfl
      · cases h
    · rw [herr] at h; cases h

theorem regOperand_outOfRange_iff {t : Text} :
    regOperand t = .error .registerOutOfRange ↔ ∃ k, 4 ≤ k ∧ k ≤ 9 ∧ t = [0x52#8, digitByte k] := by
  constructor
  case mpr =>
    rintro ⟨k, hlo, hhi, rfl⟩
    rw [regOperand_digit (by omega), dif_neg (by omega)]
  case mp =>
    intro h
    obtain ⟨k, hk, rfl⟩ | herr := regOperand_cases t
    · rw [regOperand_digit hk] at h
      split at h
      · cases h
      · exact ⟨k, by omega, by omega, rfl⟩
    · rw [herr] at h; cases h

/-- Settles O5: by `regOperand_cases` every token is `R` and a digit, which decides it, or malformed. -/
theorem registerOperandsAreRAndADigit : Obligations.RegisterOperandsAreRAndADigit := fun _ =>
  ⟨fun _ => regOperand_ok_iff, regOperand_outOfRange_iff, fun _ => regOperand_error⟩

/-- The bytes of a list of digits. -/
def numeral (ds : List (Fin 10)) : Text := ds.map fun d => digitByte d.val

/-- The number that digits denote in base 10 when they follow digits denoting `acc`. -/
def numeralValue (acc : Nat) (ds : List (Fin 10)) : Nat := ds.foldl (fun n d => 10 * n + d.val) acc

/-- `digitsFrom` reads the numerals and nothing else, at their value. -/
theorem digitsFrom_eq_some_iff {t : Text} {acc n : Nat} :
    digitsFrom acc t = some n ↔ ∃ ds, t = numeral ds ∧ n = numeralValue acc ds := by
  constructor
  case mpr =>
    rintro ⟨ds, rfl, rfl⟩
    induction ds generalizing acc with
    | nil => rfl
    | cons d ds ih =>
      rw [numeral, List.map_cons, digitsFrom, digitOf_digitByte d.isLt]
      exact ih
  case mp =>
    intro h
    induction t generalizing acc with
    | nil =>
      cases h
      exact ⟨[], rfl, rfl⟩
    | cons b t ih =>
      cases hd : digitOf b with
      | none => simp [digitsFrom, hd] at h
      | some k =>
        obtain ⟨hk, rfl⟩ := digitOf_eq_some_iff.mp hd
        obtain ⟨ds, rfl, rfl⟩ := ih (by simpa [digitsFrom, hd] using h)
        exact ⟨⟨k, hk⟩ :: ds, rfl, rfl⟩

/-- R52: one or more digits, at their value in base 10. -/
theorem digits_eq_some_iff {t : Text} {n : Nat} :
    digits t = some n ↔ ∃ ds, ds ≠ [] ∧ t = numeral ds ∧ n = numeralValue 0 ds := by
  simp only [digits, Option.ite_none_left_eq_some, digitsFrom_eq_some_iff]
  constructor
  case mpr =>
    rintro ⟨ds, hne, rfl, rfl⟩
    exact ⟨by simpa [numeral] using hne, ds, rfl, rfl⟩
  case mp =>
    rintro ⟨hne, ds, rfl, rfl⟩
    exact ⟨ds, by rintro rfl; exact hne rfl, rfl, rfl⟩

/-- R52: after a minus sign the digits count negatively. -/
theorem literal_minus (t : Text) : literal (0x2D#8 :: t) = (digits t).map fun n : Nat => -(n : Int) := by
  simp [literal]

/-- R52: without a minus sign the digits count as they are. -/
theorem literal_of_ne_minus {b : Byte} (hb : b ≠ 0x2D#8) (t : Text) :
    literal (b :: t) = (digits (b :: t)).map fun n : Nat => (n : Int) := by
  simp [literal, hb]

/-- R52: a literal is a nonempty numeral, perhaps after a minus sign, at its value. -/
theorem literal_eq_some_iff {t : Text} {v : Int} :
    literal t = some v ↔ ∃ ds, ds ≠ [] ∧
      ((t = numeral ds ∧ v = (numeralValue 0 ds : Int)) ∨
        (t = 0x2D#8 :: numeral ds ∧ v = -(numeralValue 0 ds : Int))) := by
  constructor
  case mpr =>
    rintro ⟨ds, hne, ⟨rfl, rfl⟩ | ⟨rfl, rfl⟩⟩
    · have hdigits := digits_eq_some_iff.mpr ⟨ds, hne, rfl, rfl⟩
      cases ds with
      | nil => exact absurd rfl hne
      | cons d ds => exact (literal_of_ne_minus (digitByte_ne_minus d.isLt) _).trans (congrArg (Option.map _) hdigits)
    · rw [literal_minus, digits_eq_some_iff.mpr ⟨ds, hne, rfl, rfl⟩]
      rfl
  case mp =>
    intro h
    cases t with
    | nil => cases h
    | cons b t =>
      by_cases hb : b = 0x2D#8
      · subst hb
        rw [literal_minus] at h
        obtain ⟨n, hn, rfl⟩ := Option.map_eq_some_iff.mp h
        obtain ⟨ds, hne, rfl, rfl⟩ := digits_eq_some_iff.mp hn
        exact ⟨ds, hne, .inr ⟨rfl, rfl⟩⟩
      · rw [literal_of_ne_minus hb] at h
        obtain ⟨n, hn, rfl⟩ := Option.map_eq_some_iff.mp h
        obtain ⟨ds, hne, ht, rfl⟩ := digits_eq_some_iff.mp hn
        exact ⟨ds, hne, .inl ⟨ht, rfl⟩⟩

/-- Settles O6: `literal_eq_some_iff`, whose `numeral` and `numeralValue` are the bytes and the number of the statement. -/
theorem literalsAreSignedDecimalNumerals : Obligations.LiteralsAreSignedDecimalNumerals := fun _ _ => literal_eq_some_iff

/-- R11: `Value` by the width, `INF` bounding nothing. -/
theorem inValue_iff {cfg : Config} {v : Int} :
    cfg.inValue v = true ↔ ∀ n, cfg.xlen = .bits n →
      -((2 ^ (n - 1) : Nat) : Int) ≤ v ∧ v ≤ ((2 ^ (n - 1) : Nat) : Int) - 1 := by
  cases hx : cfg.xlen with
  | inf => simp [inValue_inf hx]
  | bits n =>
    simp only [inValue_bits hx, Int.le_sub_one_iff, Width.bits.injEq, forall_eq']

/-- R53 for an accepted token: its literal is the immediate itself, which is a `Value`. -/
theorem immOperand_ok_iff {cfg : Config} {t : Text} {v : Int} :
    immOperand cfg t = .ok v ↔ literal t = some v ∧ cfg.inValue v = true := by
  constructor
  case mp => exact immOperand_ok
  case mpr =>
    rintro ⟨hl, hv⟩
    simp [immOperand, hl, hv]

/-- Settles O7: the accepted tokens by `immOperand_ok_iff`, with `Value` written out by `inValue_iff`. -/
theorem immediateOperandsAreLiteralsInValue : Obligations.ImmediateOperandsAreLiteralsInValue := fun _ _ =>
  ⟨fun _ => immOperand_ok_iff.trans (and_congr_right' inValue_iff), fun _ => immOperand_error⟩

end Sys2Proof.Machine
end

section
/-! `parse` (spec R32, R57, R58): the first failing check decides; O9, O10 and O22. -/

namespace Sys2Proof.Machine

/-- R58 step 2. -/
theorem parse_of_no_token {cfg : Config} {t : Text} (h : tokens cfg.ws t = []) : parse cfg t = .error .noToken := by
  simp [parse, h]

/-- R58 step 3. -/
theorem parse_of_no_mnemonic {cfg : Config} {t t0 : Text} {ops : List Text} (h : tokens cfg.ws t = t0 :: ops)
    (h0 : ∀ o : Opcode, t0 ≠ o.bytes) : parse cfg t = .error .unknownMnemonic := by
  simp [parse, h, opcodeOf_eq_none h0]

/-- R58 step 4: the wrong number of operand tokens. -/
theorem parseOperands_of_count {cfg : Config} {o : Opcode} {ops : List Text}
    (h : ops.length ≠ o.format.operands.length) : ∃ e, parseOperands cfg o ops = .error e := by
  cases parseOperands_cases cfg o ops with
  | count _ hr => exact ⟨_, hr⟩
  | bad hk _ _ _ _ => exact absurd hk h
  | good hk _ _ _ _ => exact absurd hk h

/-- R58 step 5: an operand token that is not valid for its kind. -/
theorem parseOperands_of_bad {cfg : Config} {o : Opcode} {ops : List Text}
    (h : ∃ p ∈ o.format.operands.zip ops, validOperand cfg p.1 p.2 = false) :
    ∃ e, parseOperands cfg o ops = .error e := by
  obtain ⟨p, hp, hbad⟩ := h
  cases parseOperands_cases cfg o ops with
  | count _ hr => exact ⟨_, hr⟩
  | bad _ e _ _ hr => exact ⟨e, hr⟩
  | good _ _ hv _ _ => cases hbad.symm.trans (hv p hp)

/-- R58 step 6: the right number of operand tokens, all valid. -/
theorem parseOperands_of_good {cfg : Config} {o : Opcode} {ops : List Text}
    (hk : ops.length = o.format.operands.length)
    (hv : ∀ p ∈ o.format.operands.zip ops, validOperand cfg p.1 p.2 = true) :
    ∃ i, parseOperands cfg o ops = .ok i ∧ i.opcode = o := by
  cases parseOperands_cases cfg o ops with
  | count hne _ => exact absurd hk hne
  | bad _ _ hbad _ _ =>
    obtain ⟨p, hp, hbad⟩ := hbad
    cases hbad.symm.trans (hv p hp)
  | good _ i _ hi hr => exact ⟨i, hr, hi.1⟩

/-- Settles O9: steps 2 and 3 by the first token, and steps 4 to 6 on a mnemonic's operand tokens; `parseOperands_error` names
the fault of steps 4 and 5. -/
theorem parseFollowsTheOrderOfChecks : Obligations.ParseFollowsTheOrderOfChecks := by
  intro cfg t
  refine ⟨fun h => ⟨_, parse_of_no_token h, rfl⟩, fun t0 ops ht => ⟨fun h => ⟨_, parse_of_no_mnemonic ht h, rfl⟩, ?_⟩⟩
  rintro o rfl
  have hraise : (∃ e, parseOperands cfg o ops = .error e) → ∃ e, parse cfg t = .error e ∧ causeOf e = .invalidOperand :=
    fun ⟨e, he⟩ => ⟨e, (parse_of_tokens ht).trans he, parseOperands_error he⟩
  refine ⟨fun hk => hraise (parseOperands_of_count ?_), fun hk => ⟨fun hbad => hraise (parseOperands_of_bad hbad), ?_⟩⟩
  · exact fun h => hk (by rw [Format.tokenCount, h])
  · intro hv
    obtain ⟨i, hi, ho⟩ := parseOperands_of_good (by rw [Format.tokenCount] at hk; omega) hv
    exact ⟨i, (parse_of_tokens ht).trans hi, ho⟩

/-- Settles O10: what parses is the answer of `parseOperands`, whose instructions are well formed. -/
theorem parsedInstructionsAreInRange : Obligations.ParsedInstructionsAreInRange := by
  intro cfg t i h
  obtain ⟨o, ops, -, hops⟩ := parse_ok_tokens h
  cases parseOperands_cases cfg o ops with
  | count _ hr => cases hr.symm.trans hops
  | bad _ _ _ _ hr => cases hr.symm.trans hops
  | good _ j _ hj hr =>
    cases hr.symm.trans hops
    exact hj.2

/-- R54: a literal outside `0 .. CAP-1` is no address operand. -/
theorem validOperand_address_of_out_of_range {cfg : Config} {u : Text} {v : Int} (hl : literal u = some v)
    (hv : ¬ (0 ≤ v ∧ v ≤ (cfg.cap : Int) - 1)) : validOperand cfg .address u = false := by
  cases h : addrOperand cfg u with
  | error e => simp [validOperand, h, Except.isOk, Except.toBool]
  | ok a =>
    obtain ⟨hla, ha⟩ := addrOperand_ok_iff.mp h
    have hva : v = a := Option.some.inj (hl.symm.trans hla)
    omega

/-- R55: in formats A and RA the last operand token is the address. -/
theorem address_mem_zip {f : Format} {ops : List Text} {u : Text} (hf : f = .a ∨ f = .ra)
    (hk : ops.length = f.operands.length) (hu : ops.getLast? = some u) : (.address, u) ∈ f.operands.zip ops := by
  obtain rfl | rfl := hf
  · match ops, hk with
    | [t1], _ =>
      cases hu
      simp [Format.operands]
  · match ops, hk with
    | [t1, t2], _ =>
      cases hu
      simp [Format.operands]

/-- R55, R56: the five mnemonics that take an address. -/
theorem format_of_mem_addressed {t0 : Text}
    (h : t0 ∈ [Opcode.load.bytes, Opcode.store.bytes, Opcode.jmp.bytes, Opcode.jz.bytes, Opcode.jnz.bytes]) :
    ∃ o : Opcode, t0 = o.bytes ∧ (o.format = .a ∨ o.format = .ra) := by
  simp only [List.mem_cons, List.not_mem_nil, or_false] at h
  obtain rfl | rfl | rfl | rfl | rfl := h
  · exact ⟨.load, rfl, .inr rfl⟩
  · exact ⟨.store, rfl, .inr rfl⟩
  · exact ⟨.jmp, rfl, .inl rfl⟩
  · exact ⟨.jz, rfl, .inr rfl⟩
  · exact ⟨.jnz, rfl, .inr rfl⟩

/-- R32: an address out of range is a bad operand, whatever the other tokens are. -/
theorem parseOperands_of_address_out_of_range {cfg : Config} {o : Opcode} {ops : List Text} {u : Text} {v : Int}
    (ho : o.format = .a ∨ o.format = .ra) (hu : ops.getLast? = some u) (hl : literal u = some v)
    (hv : ¬ (0 ≤ v ∧ v ≤ (cfg.cap : Int) - 1)) : ∃ e, parseOperands cfg o ops = .error e := by
  by_cases hk : ops.length = o.format.operands.length
  · exact parseOperands_of_bad ⟨_, address_mem_zip ho hk hu, validOperand_address_of_out_of_range hl hv⟩
  · exact parseOperands_of_count hk

/-- R32: a term with an operand out of range raises `InvalidOperand` and does nothing else. -/
theorem exec_of_not_wellFormed {s : State} {i : Instr} (h : i.wellFormed s.cfg = false) :
    exec i s = .next (s.enterFault .invalidOperand) := by
  rw [exec_eq_finish, resolve_of_not_wellFormed s.x s.mem h]
  rfl

/-- Settles O22: a fetched reference out of range is a bad operand token, and a term out of range raises in `resolve`. -/
theorem outOfRangeReferencesRaiseInvalidOperand : Obligations.OutOfRangeReferencesRaiseInvalidOperand := by
  refine ⟨fun s t t0 u ops v hf ht hmem hu hl hv => ?_, fun s i => exec_of_not_wellFormed⟩
  obtain ⟨o, rfl, ho⟩ := format_of_mem_addressed hmem
  obtain ⟨e, he⟩ := parseOperands_of_address_out_of_range ho hu hl hv
  exact step_of_operands_error hf ht he

end Sys2Proof.Machine
end

section
/-! Frames (spec R17, R68, R102): what an instruction reads, writes and raises; O23 to O28. -/

namespace Sys2Proof.Machine

/-- The register an instruction writes (R17). -/
def destination : Instr → Option Reg
  | .mov d _ => some d
  | .add d _ => some d
  | .sub d _ => some d
  | .load d _ => some d
  | .store _ _ => none
  | .jmp _ => none
  | .jz _ _ => none
  | .jnz _ _ => none
  | .hlt => none

/-- No jump writes a register. -/
theorem destination_of_jumpTarget {i : Instr} {a : Nat} (h : jumpTarget i = some a) : destination i = none := by
  cases i with
  | jmp _ | jz _ _ | jnz _ _ => rfl
  | _ => cases h

/-- A register that is written is the instruction's destination. -/
theorem destination_of_resolve_setReg {cfg : Config} {x : Regs} {m : Memory} {i : Instr} {d : Reg} {v : Int}
    (h : resolve cfg x m i = .ok (.setReg d v)) : destination i = some d := by
  obtain ⟨e, w, hmu, hi⟩ | ⟨_, _, -, -, hmu⟩ | ⟨_, -, -, hmu | hmu⟩ | ⟨-, hmu⟩ := resolve_ok_cases h <;> cases hmu
  obtain ⟨rfl, -⟩ | ⟨r, rfl, -⟩ | ⟨r, rfl, -⟩ | ⟨a, rfl, -, -⟩ := hi <;> rfl

/-- An instruction that writes a register yields a write of that register and nothing else. -/
theorem resolve_ok_of_destination {cfg : Config} {x : Regs} {m : Memory} {i : Instr} {mu : Mutation} {d : Reg}
    (hd : destination i = some d) (h : resolve cfg x m i = .ok mu) : ∃ v, mu = .setReg d v := by
  obtain ⟨e, v, rfl, -⟩ | ⟨r, a, rfl, -, -⟩ | ⟨a, hj, -, -⟩ | ⟨rfl, -⟩ := resolve_ok_cases h
  · cases (destination_of_resolve_setReg h).symm.trans hd
    exact ⟨v, rfl⟩
  · cases hd
  · cases (destination_of_jumpTarget hj).symm.trans hd
  · cases hd

/-- A jump sets `pc` to its target or does nothing. -/
theorem resolve_ok_of_jumpTarget {cfg : Config} {x : Regs} {m : Memory} {i : Instr} {mu : Mutation} {a : Nat}
    (ha : jumpTarget i = some a) (h : resolve cfg x m i = .ok mu) : mu = .setPC a ∨ mu = .noChange := by
  obtain ⟨d, v, rfl, -⟩ | ⟨r, b, rfl, -, -⟩ | ⟨b, hj, -, hmu⟩ | ⟨rfl, -⟩ := resolve_ok_cases h
  · cases (destination_of_jumpTarget ha).symm.trans (destination_of_resolve_setReg h)
  · cases ha
  · cases ha.symm.trans hj
    exact hmu
  · cases ha

/-- Settles O23: the four instructions have `d` as their destination, so what completes is a write of `x[d]`. -/
theorem registerWritersFrame : Obligations.RegisterWritersFrame := by
  intro i d hi s t h
  have hd : destination i = some d := by
    obtain ⟨imm, rfl⟩ | ⟨r, rfl⟩ | ⟨r, rfl⟩ | ⟨a, rfl⟩ := hi <;> rfl
  obtain rfl | ⟨mu, hr, rfl⟩ := exec_cases h
  · exact ⟨fun _ _ => rfl, fun _ => rfl, rfl, rfl, .inr rfl⟩
  · obtain ⟨v, rfl⟩ := resolve_ok_of_destination hd hr
    exact ⟨fun r hne => Regs.get_set_ne s.x v hne, fun _ => rfl, rfl, rfl, .inl ⟨rfl, rfl⟩⟩

/-- Settles O24: by whether the address is a cell's. -/
theorem storeFrame : Obligations.StoreFrame := by
  intro r a s t h
  by_cases ha : a < s.cfg.cap
  · cases (exec_store ha).symm.trans h
    exact ⟨rfl, fun b hb => State.cell_setCell_ne s _ hb, rfl, rfl, .inl ⟨rfl, rfl⟩⟩
  · have hw : (Instr.store r a).wellFormed s.cfg = false := by simpa [Instr.wellFormed, Config.inMemory] using ha
    cases (exec_of_not_wellFormed hw).symm.trans h
    exact ⟨rfl, fun _ _ => rfl, rfl, rfl, .inr rfl⟩

/-- Settles O25: what completes is a write of `pc`, or nothing. -/
theorem jumpsFrame : Obligations.JumpsFrame := by
  intro i a ha s t h
  obtain rfl | ⟨mu, hr, rfl⟩ := exec_cases h
  · exact ⟨rfl, fun _ => rfl, .inl rfl, rfl, .inr rfl⟩
  · obtain rfl | rfl := resolve_ok_of_jumpTarget ha hr
    · exact ⟨rfl, fun _ => rfl, .inr rfl, rfl, .inl ⟨rfl, rfl⟩⟩
    · exact ⟨rfl, fun _ => rfl, .inl rfl, rfl, .inl ⟨rfl, rfl⟩⟩

/-- Settles O26: HLT answers the halted state. -/
theorem hltFrame : Obligations.HltFrame := by
  intro s t h
  cases (exec_hlt s).symm.trans h
  exact ⟨rfl, fun _ => rfl, rfl, rfl, rfl⟩

/-- An instruction names the register it writes. -/
theorem mem_registersNamed_of_destination {i : Instr} {d : Reg} (h : destination i = some d) :
    d ∈ registersNamed i := by
  cases i with
  | mov _ _ | add _ _ | sub _ _ | load _ _ => cases h; exact List.mem_cons_self
  | _ => cases h

/-- R17: `resolve` reads the registers that the instruction names and no other. -/
theorem resolve_set_of_not_named {cfg : Config} {x : Regs} {m : Memory} {i : Instr} {r : Reg} (v : Int)
    (h : r ∉ registersNamed i) : resolve cfg (x.set r v) m i = resolve cfg x m i := by
  have hread : ∀ q ∈ registersNamed i, (x.set r v).get q = x.get q := fun q hq =>
    Regs.get_set_ne x v fun heq => h (heq ▸ hq)
  cases i with
  | mov _ _ | load _ _ | jmp _ | hlt => rfl
  | add d q => simp [resolve, resolveAdd, hread d (by simp [registersNamed]), hread q (by simp [registersNamed])]
  | sub d q => simp [resolve, resolveSub, hread d (by simp [registersNamed]), hread q (by simp [registersNamed])]
  | store q _ => simp [resolve, resolveStore, hread q (by simp [registersNamed])]
  | jz q _ => simp [resolve, resolveJz, hread q (by simp [registersNamed])]
  | jnz q _ => simp [resolve, resolveJnz, hread q (by simp [registersNamed])]

/-- A mutation commutes with a write to a register that it does not write. -/
theorem applyMutation_setReg {s : State} {m : Mutation} {r : Reg} (v : Int) (h : ∀ w, m ≠ .setReg r w) :
    applyMutation (s.setReg r v) m = (applyMutation s m).setReg r v := by
  cases m with
  | setReg d w =>
    have hne : r ≠ d := fun heq => h w (heq ▸ rfl)
    simp [applyMutation, State.setReg, Regs.set_comm s.x v w hne]
  | setMem _ _ | setPC _ | halt | noChange => rfl

/-- Settles O27: the decoder answers the same whatever the register holds, and its mutation, which is no write of that
register, commutes with the write of it. -/
theorem instructionsIgnoreRegistersTheyDoNotName : Obligations.InstructionsIgnoreRegistersTheyDoNotName := by
  intro i r v s t hr h
  rw [exec_eq_finish] at h ⊢
  rw [State.setReg_cfg, State.setReg_x, State.setReg_mem, resolve_set_of_not_named v hr]
  cases hres : resolve s.cfg s.x s.mem i with
  | error c =>
    rw [hres] at h
    cases h
    rfl
  | ok m =>
    rw [hres] at h
    cases h
    have hne : ∀ w, m ≠ .setReg r w := by
      rintro w rfl
      exact hr (mem_registersNamed_of_destination (destination_of_resolve_setReg hres))
    exact congrArg Host.Outcome.next (applyMutation_setReg v hne)

/-- Settles O28: only fault entry changes `fault`, and `resolve` raises `InvalidOperand` only. -/
theorem instructionsRaiseOnlyInvalidOperand : Obligations.InstructionsRaiseOnlyInvalidOperand := by
  intro i s t h hf
  obtain rfl | ⟨mu, -, rfl⟩ := exec_cases h
  · rfl
  · exact absurd (applyMutation_fault s mu) hf

end Sys2Proof.Machine
end

section
/-! Memory (spec R31, R33, R34, R44): read after write, and what a step does to a cell; O29 to O33. -/

namespace Sys2Proof.Machine

/-- Settles O29: `MemWrite` is a write of one cell. -/
theorem memWriteReplacesOneCell : Obligations.MemWriteReplacesOneCell := fun s a _ =>
  ⟨State.cell_setCell_same s a _, fun _ hb => State.cell_setCell_ne s _ hb, rfl, rfl, rfl, rfl,
    fun h => Memory.wf_write h a _⟩

/-- R33: `MemRead` depends on the cell it reads only. -/
theorem memRead_congr {m n : Memory} {a : Nat} (h : Memory.read m a = Memory.read n a) : memRead m a = memRead n a := by
  simp [memRead, h]

/-- Settles O30: what the cell reads as decides, and a write elsewhere leaves that. -/
theorem memReadGivesTheIntegerLastWritten : Obligations.MemReadGivesTheIntegerLastWritten := fun s a =>
  ⟨fun _ => memRead_int, fun _ => memRead_instr, fun v => memRead_int (Memory.read_write_same s.mem a (.int v)),
    fun _ _ hb => memRead_congr (Memory.read_write_ne s.mem _ hb.symm)⟩

/-- R67: the step that fetches a text that parses executes its instruction on the advanced state. -/
theorem step_of_parse_ok {s : State} {txt : Text} {i : Instr} (hf : s.fetches txt) (hp : parse s.cfg txt = .ok i) :
    step s = exec i s.advance :=
  (step_fetches hf).trans (decodeExecute_ok hp)

/-- R85: the step that fetches a STORE writes the register to the cell. -/
theorem step_of_parse_store {s : State} {txt : Text} {r : Reg} {a : Nat} (hf : s.fetches txt)
    (hp : parse s.cfg txt = .ok (.store r a)) : step s = .next (s.advance.setCell a (.int (s.x.get r))) := by
  have ha : a < s.cfg.cap := (inMemory_iff s.cfg a).mp (parsedInstructionsAreInRange _ _ _ hp)
  exact (step_of_parse_ok hf hp).trans (exec_store (s := s.advance) ha)

/-- R67 (decision D4): the step that fetches an integer. -/
theorem step_of_integer {s : State} {v : Int} (hr : s.running = true) (hpc : s.pc < s.cfg.cap)
    (hc : s.cell s.pc = .int v) : step s = .next (s.advance.enterFault .invalidOpcode) := by
  rw [step_cell hr hpc, hc, decodeExecute_int]

/-- Settles O31: the STORE leaves `pc` at the cell it wrote, which the next step fetches. -/
theorem storeIsSeenByTheNextFetch : Obligations.StoreIsSeenByTheNextFetch := by
  intro s txt r hf hp
  have hcap : s.pc + 1 < s.cfg.cap := (inMemory_iff s.cfg _).mp (parsedInstructionsAreInRange _ _ _ hp)
  have hcell := State.cell_setCell_same s.advance (s.pc + 1) (.int (s.x.get r))
  exact ⟨_, step_of_parse_store hf hp, hcell, rfl, step_of_integer hf.1 hcap hcell⟩

/-- Only a write of the cell itself changes what it holds. -/
theorem applyMutation_cell_of_ne_setMem {s : State} {m : Mutation} {a : Nat} (h : ∀ v, m ≠ .setMem a v) :
    (applyMutation s m).cell a = s.cell a := by
  cases m with
  | setMem b v => exact State.cell_setCell_ne s _ fun hab => h v (hab ▸ rfl)
  | setReg _ _ | setPC _ | halt | noChange => rfl

/-- R31: only STORE yields a write of memory, of the cell its address names and the register's value. -/
theorem resolve_ok_setMem {cfg : Config} {x : Regs} {m : Memory} {i : Instr} {a : Nat} {v : Int}
    (h : resolve cfg x m i = .ok (.setMem a v)) : ∃ r, i = .store r a ∧ v = x.get r := by
  obtain ⟨_, _, hmu, -⟩ | ⟨r, b, rfl, -, hmu⟩ | ⟨_, -, -, hmu | hmu⟩ | ⟨-, hmu⟩ := resolve_ok_cases h <;> cases hmu
  exact ⟨r, rfl, rfl⟩

/-- Settles O33: of the ends of a step only a completed instruction can change a cell, and its mutation is then a write of
that cell. -/
theorem onlyStoreWritesMemory : Obligations.OnlyStoreWritesMemory := by
  intro s t a h hne
  obtain ⟨hrun, hend⟩ := step_ends h
  cases hend with
  | endOfMemory _ ht => exact absurd (ht ▸ rfl) hne
  | faulted _ _ _ ht => exact absurd (ht ▸ rfl) hne
  | completed hpc txt i m hc hp hr ht =>
    subst ht
    by_cases hm : ∃ v, m = .setMem a v
    · obtain ⟨v, rfl⟩ := hm
      obtain ⟨r, rfl, rfl⟩ := resolve_ok_setMem hr
      exact ⟨txt, r, ⟨hrun, hpc, hc⟩, hp, State.cell_setCell_same s.advance a _⟩
    · exact absurd (applyMutation_cell_of_ne_setMem (s := s.advance) fun v hv => hm ⟨v, hv⟩) hne

/-- Settles O32: a STORE leaves an integer in its cell; a text in a cell that changed would be such an integer (O33). -/
theorem noStepCreatesAnInstructionCell : Obligations.NoStepCreatesAnInstructionCell := by
  constructor
  · intro s txt u r a hf hp _
    exact ⟨_, step_of_parse_store hf hp, State.cell_setCell_same s.advance a _⟩
  · intro s t a txt h hc
    by_contra hne
    obtain ⟨_, _, -, -, hint⟩ := onlyStoreWritesMemory s t a h fun heq => hne (heq ▸ hc)
    cases hint.symm.trans hc

end Sys2Proof.Machine
end

section
/-! The step (spec R19, R57, R59, R66 to R70): O34 to O37 and O39 to O43. -/

namespace Sys2Proof.Machine

/-- Settles O34, by `step_of_parse_ok`. -/
theorem stepRunsTheFetchedInstruction : Obligations.StepRunsTheFetchedInstruction := fun _ _ _ => step_of_parse_ok

/-- Settles O35: `finish` of the decoder's answer is, mutation by mutation, the update the statement writes out. -/
theorem executionAppliesTheDecodersMutation : Obligations.ExecutionAppliesTheDecodersMutation := by
  intro s t
  rw [decodeExecute_instr]
  cases decoder s.cfg s.x s.mem t with
  | error c => rfl
  | ok m => cases m <;> rfl

/-- Settles O36, by `step_end`: `fetch` raises before it advances `pc`. -/
theorem fetchPastMemoryRaisesEndOfMemory : Obligations.FetchPastMemoryRaisesEndOfMemory := fun _ => step_end

/-- Settles O37: the cell fetched decides, and an illegal text is judged under parameters that `fetch` does not change. -/
theorem illegalCellsRaiseTheirFault : Obligations.IllegalCellsRaiseTheirFault := fun s hr hpc =>
  ⟨fun _ => step_of_integer hr hpc, fun _ _ hc hp =>
    (step_fetches ⟨hr, hpc, hc⟩).trans (decodeExecute_error (s := s.advance) hp)⟩

/-- Settles O39: by the ends of a step. The one in which the instruction completed keeps `fault`, and only the one past
the end of memory keeps `pc` and raises `EndOfMemory`. -/
theorem faultingStepsChangeNothingElse : Obligations.FaultingStepsChangeNothingElse := by
  intro s t c hnone h hc
  obtain ⟨-, hend⟩ := step_ends h
  cases hend with
  | endOfMemory hpc ht =>
    subst ht
    cases hc
    exact ⟨rfl, rfl, rfl, rfl, iff_of_true rfl hpc, (if_pos hpc).symm⟩
  | faulted hpc f hf ht =>
    subst ht
    cases hc
    exact ⟨rfl, rfl, rfl, rfl, iff_of_false hf hpc.not_ge, (if_neg hpc.not_ge).symm⟩
  | completed _ _ _ m _ _ _ ht =>
    have hkeep : t.fault = s.fault := ht ▸ applyMutation_fault s.advance m
    cases hc.symm.trans (hkeep.trans hnone)

/-- R94: only HLT yields `Halt`. -/
theorem resolve_ok_halt {cfg : Config} {x : Regs} {m : Memory} {i : Instr} (h : resolve cfg x m i = .ok .halt) :
    i = .hlt := by
  obtain ⟨_, _, hmu, -⟩ | ⟨_, _, -, -, hmu⟩ | ⟨_, -, -, hmu | hmu⟩ | ⟨rfl, -⟩ := resolve_ok_cases h
  · cases hmu
  · cases hmu
  · cases hmu
  · cases hmu
  · rfl

/-- Settles O40: a step that enters a fault ends stopped; an instruction that completed halts the Core when it is HLT, and
otherwise keeps `running`. -/
theorem everyStepEndsInOneOfThreeWays : Obligations.EveryStepEndsInOneOfThreeWays := by
  intro s hrun hnone
  obtain ⟨t, h⟩ := step_running hrun
  refine ⟨t, h, ?_⟩
  obtain ⟨-, hend⟩ := step_ends h
  cases hend with
  | endOfMemory _ ht => exact .inr (.inr (ht ▸ ⟨rfl, _, rfl⟩))
  | faulted _ _ _ ht => exact .inr (.inr (ht ▸ ⟨rfl, _, rfl⟩))
  | completed hpc txt i m hc hp hr ht =>
    subst ht
    have hfault : (applyMutation s.advance m).fault = none := (applyMutation_fault s.advance m).trans hnone
    by_cases hm : m = .halt
    · subst hm
      cases resolve_ok_halt hr
      exact .inr (.inl ⟨rfl, hfault, txt, ⟨hrun, hpc, hc⟩, hp⟩)
    · exact .inl ⟨by rw [applyMutation_running, if_neg hm]; exact hrun, hfault⟩

/-- Settles O41: an idle Core is stuck and a running one is not. -/
theorem aCoreStepsExactlyWhenRunning : Obligations.ACoreStepsExactlyWhenRunning := by
  intro s
  cases hr : s.running with
  | false => simp [step_idle hr]
  | true =>
    obtain ⟨t, ht⟩ := step_running hr
    simp [ht]

/-- A completed instruction that changes `pc` is a jump to a cell. -/
theorem applyMutation_pc_cases {s : State} {i : Instr} {m : Mutation} (hr : resolve s.cfg s.x s.mem i = .ok m) :
    (applyMutation s.advance m).pc = s.pc + 1 ∨
      ∃ a, jumpTarget i = some a ∧ (applyMutation s.advance m).pc = a ∧ a < s.cfg.cap := by
  obtain ⟨d, v, rfl, -⟩ | ⟨r, a, -, -, rfl⟩ | ⟨a, hj, ha, rfl | rfl⟩ | ⟨-, rfl⟩ := resolve_ok_cases hr
  · exact .inl rfl
  · exact .inl rfl
  · exact .inr ⟨a, hj, rfl, ha⟩
  · exact .inl rfl
  · exact .inl rfl

/-- Settles O42: by the ends of a step. -/
theorem pcAfterEveryStep : Obligations.PcAfterEveryStep := by
  intro s t h
  obtain ⟨hrun, hend⟩ := step_ends h
  cases hend with
  | endOfMemory hpc ht => exact .inl ⟨hpc, ht ▸ rfl⟩
  | faulted hpc _ _ ht => exact .inr (.inl ⟨hpc, ht ▸ rfl⟩)
  | completed hpc txt i m hc hp hr ht =>
    subst ht
    obtain hnext | ⟨a, hj, hpca, ha⟩ := applyMutation_pc_cases hr
    · exact .inr (.inl ⟨hpc, hnext⟩)
    · exact .inr (.inr ⟨txt, i, a, ⟨hrun, hpc, hc⟩, hp, hj, hpca, ha⟩)

/-- R27: a step keeps the parameters. -/
theorem step_cfg {s t : State} (h : step s = .next t) : t.cfg = s.cfg := by
  obtain ⟨-, hend⟩ := step_ends h
  cases hend with
  | endOfMemory _ ht => exact ht ▸ rfl
  | faulted _ _ _ ht => exact ht ▸ rfl
  | completed _ _ _ m _ _ _ ht => exact ht ▸ applyMutation_cfg s.advance m

/-- R27: a load keeps the parameters. -/
theorem load_cfg {P : List Text} {s t : State} (h : load P s = .loaded t) : t.cfg = s.cfg := by
  obtain ⟨-, -, -, rfl⟩ := load_loaded h
  rfl

/-- Settles O43: by the ends of a step (`step_cfg`), and by the state a load makes (`load_cfg`). -/
theorem parametersNeverChange : Obligations.ParametersNeverChange := ⟨fun _ _ => step_cfg, fun _ _ _ => load_cfg⟩

end Sys2Proof.Machine
end

section
/-! Creation, load and run (spec R28, R65, R71, R72, R76, R105, R121): O44, O47, O49 to O52 and O54. -/

namespace Sys2Proof.Machine

/-- Settles O44: the fields of reset, whose memory lists nothing; being idle, it has no step. -/
theorem createdCoreIsIdleAndZero : Obligations.CreatedCoreIsIdleAndZero :=
  ⟨rfl, rfl, rfl, Regs.get_zero, fun _ => rfl, step_idle rfl⟩

/-- The state `load` makes of a program under given parameters (R65, R122). -/
def loadedState (cfg : Config) (P : List Text) : State where
  cfg := cfg
  x := { r0 := 0, r1 := 0, r2 := 0, r3 := 0 }
  pc := 0
  running := true
  fault := none
  mem := Memory.ofProgram 0 P

/-- R113 (decision D20): a running Core is not loaded. -/
theorem load_running {P : List Text} {s : State} (hr : s.running = true) : load P s = .refused .loadWhileRunning := by
  simp [load, hr]

/-- R65 (decision D19): a program longer than `CAP`. -/
theorem load_too_large {P : List Text} {s : State} (hr : s.running = false) (hlen : s.cfg.cap < P.length) :
    load P s = .programTooLarge s := by
  simp [load, hr, hlen]

/-- R65: an idle Core loads a program that fits its memory, of texts that fit their cells. -/
theorem load_idle {P : List Text} {s : State} (hr : s.running = false) (hlen : P.length ≤ s.cfg.cap)
    (hfits : ∀ p ∈ P, s.cfg.fits p = true) : load P s = .loaded (loadedState s.cfg P) := by
  have hall : P.all s.cfg.fits = true := List.all_eq_true.mpr hfits
  simp [load, hr, hlen.not_gt, hall, loadedState]

/-- R65: the program's texts stand in the cells from 0 on, verbatim. -/
theorem Memory.read_ofProgram_of_lt {P : List Text} {a : Nat} (h : a < P.length) :
    Memory.read (Memory.ofProgram 0 P) a = .instr P[a] := by
  have hin : 0 ≤ a ∧ a < 0 + P.length := by omega
  rw [Memory.read_ofProgram, dif_pos hin]
  rfl

/-- Settles O47: the three answers of `load`, and what the loaded state holds. -/
theorem loadResetsTheCoreAndPlacesTheProgram : Obligations.LoadResetsTheCoreAndPlacesTheProgram := fun _ _ =>
  ⟨load_running, load_too_large, fun hr hlen hfits =>
    ⟨_, load_idle hr hlen hfits, rfl, rfl, rfl, rfl, Regs.get_zero, fun _ => Memory.read_ofProgram_of_lt,
      fun _ => Memory.read_ofProgram_of_length_le⟩⟩

/-- Settles O49, by `run_idle`. -/
theorem runOnAnIdleCoreChangesNothing : Obligations.RunOnAnIdleCoreChangesNothing := fun n _ h => run_idle h n

/-- R72: the end of a run is idle. -/
theorem run_end_idle {n : Nat} {s t : State} (h : run n s = some t) : t.running = false := by
  induction n generalizing s with
  | zero =>
    cases hr : s.running with
    | false =>
      cases (run_idle hr 0).symm.trans h
      exact hr
    | true => simp [run, hr] at h
  | succ n ih =>
    obtain ⟨hr, rfl⟩ | ⟨u, -, -, hu⟩ := run_succ_some h
    · exact hr
    · exact ih hu

/-- A run of a running Core takes its first step and goes on with the rest of the fuel. -/
theorem run_step {n : Nat} {s u : State} (hr : s.running = true) (hu : step s = .next u) : run (n + 1) s = run n u := by
  simp [run, hr, hu]

/-- R71: more fuel does not change the end of a run. -/
theorem run_add {n : Nat} {s t : State} (h : run n s = some t) (m : Nat) : run (n + m) s = some t := by
  induction n generalizing s with
  | zero =>
    cases hr : s.running with
    | false => exact (run_idle hr _).trans ((run_idle hr 0).symm.trans h)
    | true => simp [run, hr] at h
  | succ n ih =>
    obtain ⟨hr, rfl⟩ | ⟨u, hr, hu, hrun⟩ := run_succ_some h
    · exact run_idle hr _
    · rw [Nat.succ_add, run_step hr hu]
      exact ih hrun

/-- R76: two runs from one state that end, end in one state. -/
theorem run_unique {n m : Nat} {s t u : State} (ht : run n s = some t) (hu : run m s = some u) : u = t := by
  have hum : run (n + m) s = some u := Nat.add_comm m n ▸ run_add hu n
  exact Option.some.inj (hum.symm.trans (run_add ht m))

/-- Settles O50: the end of a run is idle (`run_end_idle`), and more fuel keeps it (`run_add`). -/
theorem theEndOfARunIsOneIdleState : Obligations.TheEndOfARunIsOneIdleState := fun _ _ _ h =>
  ⟨run_end_idle h, step_idle (run_end_idle h), run_add h⟩

/-- R70: a step to an idle state without a fault executed HLT. -/
theorem step_to_normal_end {u t : State} (h : step u = .next t) (hidle : t.running = false) (hnone : t.fault = none) :
    ∃ txt, u.fetches txt ∧ parse u.cfg txt = .ok .hlt ∧ t = u.advance.halt := by
  obtain ⟨hrun, hend⟩ := step_ends h
  cases hend with
  | endOfMemory _ ht => cases ht ▸ hnone
  | faulted _ _ _ ht => cases ht ▸ hnone
  | completed hpc txt i m hc hp hr ht =>
    by_cases hm : m = .halt
    · subst hm
      cases resolve_ok_halt hr
      exact ⟨txt, ⟨hrun, hpc, hc⟩, hp, ht⟩
    · have hkeep : t.running = u.running := by rw [ht, applyMutation_running, if_neg hm]; rfl
      cases hidle.symm.trans (hkeep.trans hrun)

/-- Settles O51: the last step of the run ends idle without a fault, so it executed HLT. -/
theorem normalEndsStandAfterTheHltExecuted : Obligations.NormalEndsStandAfterTheHltExecuted := by
  intro n s t hr _ hrun hnone
  obtain ⟨m, u, hm, hsteps, -, hstep⟩ := run_last_step hr hrun
  obtain ⟨txt, hf, hp, rfl⟩ := step_to_normal_end hstep (run_end_idle hrun) hnone
  exact ⟨m, u, txt, hm, hsteps, hf, hp, hstep, rfl, hf.2.2⟩

/-- R105: what a state in which the fault `c` was entered shows of the cause. -/
def State.ShowsCause (t : State) (c : Cause) : Prop :=
  (c = .endOfMemory ∧ t.pc = t.cfg.cap) ∨
  (∃ a, t.pc = a + 1 ∧ a < t.cfg.cap ∧
    ((c = .invalidOpcode ∧ ∃ v, t.cell a = .int v) ∨
      (∃ txt e, t.cell a = .instr txt ∧ parse t.cfg txt = .error e ∧ c = causeOf e) ∨
      (∃ txt d b w, t.cell a = .instr txt ∧ parse t.cfg txt = .ok (.load d b) ∧ t.cell b = .instr w ∧
        c = .invalidOperand)))

/-- R105: from a state of the invariant, the step that enters a fault shows its cause. -/
theorem step_showsCause {u t : State} {c : Cause} (hu : u.Inv) (h : step u = .next t) (hc : t.fault = some c) :
    t.ShowsCause c := by
  obtain ⟨hrun, hcase⟩ := step_cases h
  cases hcase with
  | endOfMemory hpc ht =>
    subst ht
    cases hc
    exact .inl ⟨rfl, Nat.le_antisymm hu.pc_le hpc⟩
  | integer hpc v hcell ht =>
    subst ht
    cases hc
    exact .inr ⟨u.pc, rfl, hpc, .inl ⟨rfl, v, hcell⟩⟩
  | illegal hpc txt e hcell hp ht =>
    subst ht
    cases hc
    exact .inr ⟨u.pc, rfl, hpc, .inr (.inl ⟨txt, e, hcell, hp, rfl⟩)⟩
  | raised hpc txt i hcell hp hr ht =>
    subst ht
    cases hc
    obtain ⟨-, hbad | ⟨d, b, w, rfl, -, hw⟩⟩ := resolve_error_cases hr
    · cases hbad.symm.trans (parsedInstructionsAreInRange _ _ _ hp)
    · exact .inr ⟨u.pc, rfl, hpc, .inr (.inr ⟨txt, d, b, w, hcell, hp, hw, rfl⟩)⟩
  | completed _ _ _ m _ _ _ ht =>
    have hkeep : t.fault = u.fault := ht ▸ applyMutation_fault u.advance m
    cases hc.symm.trans (hkeep.trans (hu.no_fault hrun))

/-- Settles O52: the run keeps the invariant up to its last step, which entered the fault. -/
theorem faultedEndsShowTheFaultingCell : Obligations.FaultedEndsShowTheFaultingCell := by
  intro n s t c hs hr hrun hc
  obtain ⟨m, u, -, hsteps, -, hstep⟩ := run_last_step hr hrun
  exact step_showsCause (steps_induction everyStepKeepsTheInvariant hs hsteps) hstep hc

/-- R76: on idle Cores `load` depends on the program and the parameters alone. -/
theorem load_of_cfg_eq {P : List Text} {s s' t : State} (h : load P s = .loaded t) (hcfg : s'.cfg = s.cfg)
    (hidle : s'.running = false) : load P s' = .loaded t := by
  obtain ⟨-, hlen, hfits, rfl⟩ := load_loaded h
  rw [← hcfg] at hlen hfits ⊢
  exact load_idle hidle hlen hfits

/-- R27: a run keeps the parameters. -/
theorem run_cfg {n : Nat} {s t : State} (h : run n s = some t) : t.cfg = s.cfg :=
  run_induction (Q := fun u => u.cfg = s.cfg) (fun _ _ hu hstep => (step_cfg hstep).trans hu) rfl h

/-- Settles O54: the end of a run is idle and has the parameters of the load, so it loads as the Core before did; and the end
of a run is unique. -/
theorem reloadingRepeatsTheRun : Obligations.ReloadingRepeatsTheRun := by
  intro P s s' t hload hcfg hidle
  refine ⟨t, load_of_cfg_eq hload hcfg hidle, rfl, fun n u hu => ⟨hu, ?_, fun _ _ => run_unique hu⟩⟩
  exact load_of_cfg_eq hload ((run_cfg hu).trans (load_cfg hload)) (run_end_idle hu)

end Sys2Proof.Machine
end

section
/-! A pool of Cores (spec R46, R70, R113, R116): each Core acts as it does alone; O57 and O58. -/

namespace Sys2Proof.Machine

/-- A Core that steps alone steps in its pool. -/
theorem Pool.stepAt_of_step {p : Pool} {k : Nat} {s t : State} (hs : p[k]? = some s) (ht : step s = .next t) :
    p.stepAt k = .next (p.set k t) := by
  simp [Pool.stepAt, hs, ht]

/-- Settles O57: each step reads and sets its own entry of the pool, and writes to two entries commute. -/
theorem coresStepIndependently : Obligations.CoresStepIndependently := by
  intro p q r j k hjk hj hk
  obtain ⟨s, s', hs, hs', rfl⟩ := Pool.stepAt_next hj
  obtain ⟨u, u', hu, hu', rfl⟩ := Pool.stepAt_next hk
  rw [List.getElem?_set_ne hjk] at hu
  have hj' : (p.set k u')[j]? = some s := (List.getElem?_set_ne hjk.symm).trans hs
  refine ⟨_, Pool.stepAt_of_step hu hu', ?_⟩
  rw [List.set_comm _ _ hjk]
  exact Pool.stepAt_of_step hj' hs'

/-- Putting a Core back where it stood gives the pool back. -/
theorem Pool.set_self {p : Pool} {k : Nat} {s : State} (hs : p[k]? = some s) : p.set k s = p := by
  obtain ⟨hk, rfl⟩ := List.getElem?_eq_some_iff.mp hs
  exact List.set_getElem_self hk

/-- Settles O58: the pool passes on what the Core at the index answers. -/
theorem aPoolActsAsItsCores : Obligations.APoolActsAsItsCores := by
  intro p k P
  refine ⟨fun hk => ?none, fun s hs hr => ?running, fun s hs hr => ?idle⟩
  case none => simp [Pool.stepAt, Pool.loadAt, hk]
  case running =>
    obtain ⟨t, ht⟩ := step_running hr
    exact ⟨⟨t, ht, Pool.stepAt_of_step hs ht⟩, by simp [Pool.loadAt, hs, load_running hr]⟩
  case idle =>
    refine ⟨by simp [Pool.stepAt, hs, step_idle hr], fun hlen => ?_, fun hlen hfits => ?_⟩
    · simp [Pool.loadAt, hs, load_too_large hr hlen, Pool.set_self hs]
    · exact ⟨_, load_idle hr hlen hfits, by simp [Pool.loadAt, hs, load_idle hr hlen hfits]⟩

end Sys2Proof.Machine
end
